-- ==== Sys2Proof/Word.lean ====
section
/-! DEFINITION. The widths and identifier spaces of WTIO (00_scope.md R4, R9; 20_memory.md R60). -/

namespace Sys2Proof

/-- An 8-bit register, an operand field or a duty (R4). -/
abbrev Byte := BitVec 8

/-- A 24-bit command word (R82). -/
abbrev Word := BitVec 24

/-- Response data (R9, R98). -/
abbrev Data := BitVec 16

/-- A logical pin identifier, 0 to 19 (R4, R12): "unrepresentable by construction" outside (R170). -/
abbrev Pin := Fin 20

/-- A bit number of an 8-bit register (R10). -/
abbrev BitIx := Fin 8

/-- A timer unit, 0 to 2 (R4, R120). -/
abbrev Timer := Fin 3

/-- A PWM channel, 0 to 5 (R4, R6). -/
abbrev Channel := Fin 6

/-- An analog channel, 0 to 5 (R4, R60). -/
abbrev AnaChannel := Fin 6

/-- The three register groups (R5, R12, R22). -/
inductive Group where
  | B | C | D
  deriving DecidableEq, Repr

/-- The group's number in the handle arithmetic of R22: B is 0, C is 1, D is 2. -/
def Group.num : Group → Fin 3
  | .B => 0
  | .C => 1
  | .D => 2

end Sys2Proof
end

