-- ==== Sys2Proof/Syntax.lean ====
section
/-! DEFINITION. The registers a command can name and the 16 commands (10_state.md R22; 30_encoding.md R90). -/

namespace Sys2Proof

/-- The twenty stored registers of 8 bits (R22). The twenty-first stored register, ADRES, has 10 bits and
is written by the converter only. -/
inductive Reg8 where
  | dir (g : Group)
  | out (g : Group)
  | mca (t : Timer)
  | mcb (t : Timer)
  | duty (c : Channel)
  | adsel
  | adcsr
  deriving DecidableEq, Repr

/-- What a register handle in use names: a stored 8-bit register, an input view, or ADRES (R22). -/
inductive Handle where
  | reg (r : Reg8)
  | inp (g : Group)
  | adres
  deriving DecidableEq, Repr

/-- The two motors (R4, R151). -/
inductive Motor where
  | A | B
  deriving DecidableEq, Repr

/-- The 16 commands with their operands (R90), one constructor per row of the opcode table. -/
inductive Instr where
  /-- SETBIT h, b (R100). -/
  | setbit (h : Handle) (b : BitIx)
  /-- CLRBIT h, b (R101). -/
  | clrbit (h : Handle) (b : BitIx)
  /-- TESTBIT h, b (R102). -/
  | testbit (h : Handle) (b : BitIx)
  /-- RDREG h (R103). -/
  | rdreg (h : Handle)
  /-- PINMODE p, v; v true is output (R110). -/
  | pinmode (p : Pin) (v : Bool)
  /-- DWRITE p, v; v true is high (R111). -/
  | dwrite (p : Pin) (v : Bool)
  /-- DREAD p (R112). -/
  | dread (p : Pin)
  /-- PWMWR p, d (R124). -/
  | pwmwr (p : Pin) (d : Byte)
  /-- AREAD k (R138). -/
  | aread (k : AnaChannel)
  /-- INITPWM (R121). -/
  | initpwm
  /-- INITADC (R136). -/
  | initadc
  /-- SETUPM (R152). -/
  | setupm
  /-- SETMOTOR m, s (R153). -/
  | setmotor (m : Motor) (v : Int)
  /-- DRIVEA s (R154). -/
  | drivea (v : Int)
  /-- DRIVEB s (R155). -/
  | driveb (v : Int)
  /-- STOPALL (R156). -/
  | stopall
  deriving DecidableEq, Repr

/-- The 16 opcodes (R90). -/
inductive Op where
  | setbit | clrbit | testbit | rdreg | pinmode | dwrite | dread | pwmwr | aread | initpwm | initadc
  | setupm | setmotor | drivea | driveb | stopall
  deriving DecidableEq, Repr

/-- The fault causes (R171). -/
inductive Cause where
  | illegalOp | reservedField | badHandle | badPin | badChannel | badSpeed
  deriving DecidableEq, Repr

/-- What a command word decodes to: one command, or one fault cause (R91). -/
inductive Decoded where
  | command (i : Instr)
  | refused (c : Cause)
  deriving DecidableEq, Repr

end Sys2Proof
end

