-- ==== Sys2Proof/Decode.lean ====
section
/-! DEFINITION. The command word: fields, opcode map, total decoding by name, and the encoder
(30_encoding.md R82 to R93). -/

namespace Sys2Proof

/-! ### Fields (R82, R89) -/

/-- `OP = cmd[23:16]`. -/
def opField (w : Word) : Byte := w.extractLsb' 16 8

/-- `A = cmd[15:8]`. -/
def aField (w : Word) : Byte := w.extractLsb' 8 8

/-- `B = cmd[7:0]`. -/
def bField (w : Word) : Byte := w.extractLsb' 0 8

/-- `h = A[4:0]`, and `p = A[4:0]` (R84 to R86). -/
def aLow5 (w : Word) : BitVec 5 := (aField w).extractLsb' 0 5

/-- `k = A[3:0]` (R87). -/
def aLow4 (w : Word) : BitVec 4 := (aField w).extractLsb' 0 4

/-- `m = A[7]` (R88). -/
def motorField (w : Word) : Bool := (aField w).getLsbD 7

/-- `{A[0], B[7:0]}` (R88). -/
def speedField (w : Word) : BitVec 9 := (aField w).extractLsb' 0 1 ++ bField w

/-- `b = B[2:0]` (R84). -/
def bitField (w : Word) : BitIx := ((bField w).extractLsb' 0 3).toFin

/-- `v = B[0]` (R86). -/
def levelField (w : Word) : Bool := (bField w).getLsbD 0

/-- `d = B[7:0]` (R86). -/
def dutyField (w : Word) : Byte := bField w

/-! ### The opcode map (R90) -/

/-- The OP column of R90. -/
def Op.code : Op → Byte
  | .setbit => 0x01#8
  | .clrbit => 0x02#8
  | .testbit => 0x03#8
  | .rdreg => 0x04#8
  | .pinmode => 0x10#8
  | .dwrite => 0x11#8
  | .dread => 0x12#8
  | .pwmwr => 0x13#8
  | .aread => 0x14#8
  | .initpwm => 0x15#8
  | .initadc => 0x16#8
  | .setupm => 0x20#8
  | .setmotor => 0x21#8
  | .drivea => 0x22#8
  | .driveb => 0x23#8
  | .stopall => 0x24#8

/-- All opcodes, in the order of R90. -/
def Op.all : List Op :=
  [.setbit, .clrbit, .testbit, .rdreg, .pinmode, .dwrite, .dread, .pwmwr, .aread, .initpwm, .initadc,
   .setupm, .setmotor, .drivea, .driveb, .stopall]

/-- The opcode a byte selects; none for the 240 illegal ones (R92). -/
def Op.ofByte (x : Byte) : Option Op := Op.all.find? (fun o => o.code == x)

/-- The match column of R90. -/
def Op.fmatch : Op → Word
  | .setbit => 0x010000#24
  | .clrbit => 0x020000#24
  | .testbit => 0x030000#24
  | .rdreg => 0x040000#24
  | .pinmode => 0x100000#24
  | .dwrite => 0x110000#24
  | .dread => 0x120000#24
  | .pwmwr => 0x130000#24
  | .aread => 0x140000#24
  | .initpwm => 0x150000#24
  | .initadc => 0x160000#24
  | .setupm => 0x200000#24
  | .setmotor => 0x210000#24
  | .drivea => 0x220000#24
  | .driveb => 0x230000#24
  | .stopall => 0x240000#24

/-- The mask column of R90. -/
def Op.fmask : Op → Word
  | .setbit => 0xFFE0F8#24
  | .clrbit => 0xFFE0F8#24
  | .testbit => 0xFFE0F8#24
  | .rdreg => 0xFFE0FF#24
  | .pinmode => 0xFFE0FE#24
  | .dwrite => 0xFFE0FE#24
  | .dread => 0xFFE0FF#24
  | .pwmwr => 0xFFE000#24
  | .aread => 0xFFF0FF#24
  | .initpwm => 0xFFFFFF#24
  | .initadc => 0xFFFFFF#24
  | .setupm => 0xFFFFFF#24
  | .setmotor => 0xFF7E00#24
  | .drivea => 0xFFFE00#24
  | .driveb => 0xFFFE00#24
  | .stopall => 0xFFFFFF#24

/-! ### Handles (R22) -/

/-- The handle table of R22; none for the reserved 0x18..0x1F (R64). -/
def Handle.ofNum (h : BitVec 5) : Option Handle :=
  match h.toNat with
  | 0x00 => some (.reg (.dir .B))
  | 0x01 => some (.reg (.out .B))
  | 0x02 => some (.inp .B)
  | 0x03 => some (.reg (.dir .C))
  | 0x04 => some (.reg (.out .C))
  | 0x05 => some (.inp .C)
  | 0x06 => some (.reg (.dir .D))
  | 0x07 => some (.reg (.out .D))
  | 0x08 => some (.inp .D)
  | 0x09 => some (.reg (.mca 0))
  | 0x0A => some (.reg (.mcb 0))
  | 0x0B => some (.reg (.mca 1))
  | 0x0C => some (.reg (.mcb 1))
  | 0x0D => some (.reg (.mca 2))
  | 0x0E => some (.reg (.mcb 2))
  | 0x0F => some (.reg (.duty 0))
  | 0x10 => some (.reg (.duty 1))
  | 0x11 => some (.reg (.duty 2))
  | 0x12 => some (.reg (.duty 3))
  | 0x13 => some (.reg (.duty 4))
  | 0x14 => some (.reg (.duty 5))
  | 0x15 => some (.reg .adsel)
  | 0x16 => some (.reg .adcsr)
  | 0x17 => some .adres
  | _ => none

/-- The handle arithmetic of R22: `H_DIR(g) = 3g`, `H_OUT(g) = 3g + 1`, `H_IN(g) = 3g + 2`,
`H_MCA(t) = 0x09 + 2t`, `H_MCB(t) = 0x0A + 2t`, `H_DUTY(c) = 0x0F + c`. -/
def Handle.num : Handle → BitVec 5
  | .reg (.dir g) => BitVec.ofNat 5 (3 * g.num.val)
  | .reg (.out g) => BitVec.ofNat 5 (3 * g.num.val + 1)
  | .inp g => BitVec.ofNat 5 (3 * g.num.val + 2)
  | .reg (.mca t) => BitVec.ofNat 5 (0x09 + 2 * t.val)
  | .reg (.mcb t) => BitVec.ofNat 5 (0x0A + 2 * t.val)
  | .reg (.duty c) => BitVec.ofNat 5 (0x0F + c.val)
  | .reg .adsel => 0x15#5
  | .reg .adcsr => 0x16#5
  | .adres => 0x17#5

/-! ### Which operands a command takes (R90) -/

/-- The stored register SETBIT and CLRBIT reach through a handle: a direction, output or mode-control
register, else none (R22 "bit-writable", R90, R100). -/
def Handle.bitTarget : Handle → Option Reg8
  | .reg (.dir g) => some (.dir g)
  | .reg (.out g) => some (.out g)
  | .reg (.mca t) => some (.mca t)
  | .reg (.mcb t) => some (.mcb t)
  | .reg (.duty _) => none
  | .reg .adsel => none
  | .reg .adcsr => none
  | .inp _ => none
  | .adres => none

/-- "h bit-writable" of R90. -/
def Handle.bitWritable (h : Handle) : Bool := h.bitTarget.isSome

/-- TESTBIT takes every 8-bit register or view: h in 0x00..0x16, so not ADRES (R90, R102). -/
def Handle.bitTestable : Handle → Bool
  | .reg _ => true
  | .inp _ => true
  | .adres => false

/-- The legal speeds -255..255 (R88, R158). -/
def speedOk (v : Int) : Bool := decide (-255 ≤ v ∧ v ≤ 255)

/-! ### Decoding (R91) -/

/-- The handle operand under an opcode that allows the handles of `ok`; else BAD_HANDLE (R91, R93(b)). -/
def decodeHandle (h : BitVec 5) (ok : Handle → Bool) (f : Handle → Instr) : Decoded :=
  match Handle.ofNum h with
  | some x => if ok x then .command (f x) else .refused .badHandle
  | none => .refused .badHandle

/-- The pin operand: 0..19, else BAD_PIN (R91, R93(c)). -/
def decodePin (p : BitVec 5) (f : Pin → Instr) : Decoded :=
  if h : p.toNat < 20 then .command (f ⟨p.toNat, h⟩) else .refused .badPin

/-- The channel operand: 0..5, else BAD_CHANNEL (R91, R93(d)). -/
def decodeChannel (k : BitVec 4) (f : AnaChannel → Instr) : Decoded :=
  if h : k.toNat < 6 then .command (f ⟨k.toNat, h⟩) else .refused .badChannel

/-- The speed operand `signed_9`: every pattern but 0x100, which is BAD_SPEED (R88, R91, R93(e)). -/
def decodeSpeed (v : BitVec 9) (f : Int → Instr) : Decoded :=
  if v = 0x100#9 then .refused .badSpeed else .command (f v.toInt)

/-- `m = A[7]`: 0 is motor A, 1 motor B (R88). -/
def decodeMotor (m : Bool) : Motor := if m then .B else .A

/-- The operand check of each format, after the opcode and the must-be-zero bits (R91). -/
def decodeOperands (w : Word) : Op → Decoded
  | .setbit => decodeHandle (aLow5 w) Handle.bitWritable (fun h => .setbit h (bitField w))
  | .clrbit => decodeHandle (aLow5 w) Handle.bitWritable (fun h => .clrbit h (bitField w))
  | .testbit => decodeHandle (aLow5 w) Handle.bitTestable (fun h => .testbit h (bitField w))
  | .rdreg => decodeHandle (aLow5 w) (fun _ => true) (fun h => .rdreg h)
  | .pinmode => decodePin (aLow5 w) (fun p => .pinmode p (levelField w))
  | .dwrite => decodePin (aLow5 w) (fun p => .dwrite p (levelField w))
  | .dread => decodePin (aLow5 w) (fun p => .dread p)
  | .pwmwr => decodePin (aLow5 w) (fun p => .pwmwr p (dutyField w))
  | .aread => decodeChannel (aLow4 w) (fun k => .aread k)
  | .initpwm => .command .initpwm
  | .initadc => .command .initadc
  | .setupm => .command .setupm
  | .setmotor => decodeSpeed (speedField w) (fun v => .setmotor (decodeMotor (motorField w)) v)
  | .drivea => decodeSpeed (speedField w) (fun v => .drivea v)
  | .driveb => decodeSpeed (speedField w) (fun v => .driveb v)
  | .stopall => .command .stopall

/-- `Decode(w)` of R91: total, one command or one cause, the lowest code first (R173). -/
def decode (w : Word) : Decoded :=
  match Op.ofByte (opField w) with
  | none => .refused .illegalOp
  | some o => if w &&& o.fmask = o.fmatch then decodeOperands w o else .refused .reservedField

/-! ### Encoding (R82 to R90) -/

/-- The opcode of a command (R90). -/
def Instr.op : Instr → Op
  | .setbit _ _ => .setbit
  | .clrbit _ _ => .clrbit
  | .testbit _ _ => .testbit
  | .rdreg _ => .rdreg
  | .pinmode _ _ => .pinmode
  | .dwrite _ _ => .dwrite
  | .dread _ => .dread
  | .pwmwr _ _ => .pwmwr
  | .aread _ => .aread
  | .initpwm => .initpwm
  | .initadc => .initadc
  | .setupm => .setupm
  | .setmotor _ _ => .setmotor
  | .drivea _ => .drivea
  | .driveb _ => .driveb
  | .stopall => .stopall

/-- A bit number as the 3-bit field `B[2:0]` (R84). -/
def bitBits (b : BitIx) : BitVec 3 := BitVec.ofNat 3 b.val

/-- A level as a field of width 1 (R86). -/
def levelBit (v : Bool) : BitVec 1 := BitVec.ofBool v

/-- The 9-bit two's complement of a speed, `s & 0x1FF` (R153). -/
def speedBits (v : Int) : BitVec 9 := BitVec.ofInt 9 v

/-- The motor bit of format MS (R88). -/
def motorBit : Motor → BitVec 1
  | .A => 0#1
  | .B => 1#1

/-- The operand field A of a command, format by format (R83 to R88). -/
def Instr.aBits : Instr → Byte
  | .setbit h _ => 0#3 ++ h.num
  | .clrbit h _ => 0#3 ++ h.num
  | .testbit h _ => 0#3 ++ h.num
  | .rdreg h => 0#3 ++ h.num
  | .pinmode p _ => 0#3 ++ BitVec.ofNat 5 p.val
  | .dwrite p _ => 0#3 ++ BitVec.ofNat 5 p.val
  | .dread p => 0#3 ++ BitVec.ofNat 5 p.val
  | .pwmwr p _ => 0#3 ++ BitVec.ofNat 5 p.val
  | .aread k => 0#4 ++ BitVec.ofNat 4 k.val
  | .initpwm => 0#8
  | .initadc => 0#8
  | .setupm => 0#8
  | .setmotor m v => motorBit m ++ 0#6 ++ (speedBits v).extractLsb' 8 1
  | .drivea v => 0#7 ++ (speedBits v).extractLsb' 8 1
  | .driveb v => 0#7 ++ (speedBits v).extractLsb' 8 1
  | .stopall => 0#8

/-- The operand field B of a command, format by format (R83 to R88). -/
def Instr.bBits : Instr → Byte
  | .setbit _ b => 0#5 ++ bitBits b
  | .clrbit _ b => 0#5 ++ bitBits b
  | .testbit _ b => 0#5 ++ bitBits b
  | .rdreg _ => 0#8
  | .pinmode _ v => 0#7 ++ levelBit v
  | .dwrite _ v => 0#7 ++ levelBit v
  | .dread _ => 0#8
  | .pwmwr _ d => d
  | .aread _ => 0#8
  | .initpwm => 0#8
  | .initadc => 0#8
  | .setupm => 0#8
  | .setmotor _ v => (speedBits v).extractLsb' 0 8
  | .drivea v => (speedBits v).extractLsb' 0 8
  | .driveb v => (speedBits v).extractLsb' 0 8
  | .stopall => 0#8

/-- The word of three 8-bit fields (R82). -/
def wordOf (op a b : Byte) : Word := op ++ (a ++ b)

/-- The command word of a command (R82); for a well-formed one it is the word that spells it. -/
def encode (i : Instr) : Word := wordOf i.op.code i.aBits i.bBits

/-! ### The host's reading of a table word -/

/-- The instruction the decoder reads from the low `nbits` bits of `w`, the bits above being 0. A command
word is one 24-bit value moved whole (R66), so its bits are numbered as the table numbers them (log 22). -/
def decodeTableWord (nbits w : Nat) : Option Instr :=
  let v := w % 2 ^ nbits
  if v < 2 ^ 24 then
    match decode (BitVec.ofNat 24 v) with
    | .command i => some i
    | .refused _ => none
  else none

end Sys2Proof
end

