-- ==== Sys2Proof/Config.lean ====
section
/-! DEFINITION. The configuration of WTIO (00_scope.md R5 to R8, R121, R136), its constraints, the reference
configuration CFG0, and the free values of the environment, the converter and the response port. -/

namespace Sys2Proof

/-- A motor's fixed triple of pins (R7, R151). -/
structure MotorPins where
  d1  : Pin
  d2  : Pin
  pwm : Pin
  deriving DecidableEq, Repr

/-- The implementation parameters, "fixed for the life of the block and never written" (R5 to R8).
They are parameters of the step relation by R21; the model carries them in State as data that no step
writes (log 1), so that a claim over every state is a claim over every configuration. -/
structure Config where
  /-- `PINMAP : Pin -> Group x BitIndex` (R5). -/
  pinmap : Vector (Group × BitIx) 20
  /-- `PWMBIND : Pin -> Option Channel` (R6). -/
  pwmbind : Vector (Option Channel) 20
  /-- `ANAPIN` (R63); no rule reads it. -/
  anapin : Vector Pin 6
  motorA : MotorPins
  motorB : MotorPins
  pinEn : Pin
  /-- `PWM_INIT_A` (R121). -/
  pwmInitA : Byte
  /-- `PWM_INIT_B` (R121). -/
  pwmInitB : Byte
  /-- `ADC_REF_INIT` (R136). -/
  adcRefInit : BitVec 4
  /-- `ADC_DIV_INIT` (R136). -/
  adcDivInit : BitVec 3
  /-- `F_CLK` in Hz (R8, R206); no rule reads it. -/
  fClk : Nat
  deriving DecidableEq, Repr

namespace Config

/-- The seven pins of the motor driver (R7). -/
def motorDriverPins (c : Config) : List Pin :=
  [c.motorA.d1, c.motorA.d2, c.motorA.pwm, c.motorB.d1, c.motorB.d2, c.motorB.pwm, c.pinEn]

/-- The constraints the spec puts on a configuration: PINMAP injective with the two values the source
gives (R5, D6); each of the six channels bound to exactly one pin (R6); the seven motor pins distinct and
both PWM pins bound (R7; that their channels differ follows from R6); one pin per analog channel (R63);
PWM_INIT_A connects both outputs in fast-PWM mode and PWM_INIT_B runs the clock (U17). -/
abbrev Ok (c : Config) : Prop :=
  (∀ p q : Pin, c.pinmap[p] = c.pinmap[q] → p = q)
  ∧ c.pinmap[5] = (.D, 5) ∧ c.pinmap[6] = (.D, 6)
  ∧ (∀ p q : Pin, ∀ ch : Channel, c.pwmbind[p] = some ch → c.pwmbind[q] = some ch → p = q)
  ∧ (∀ ch : Channel, ∃ p : Pin, c.pwmbind[p] = some ch)
  ∧ c.motorDriverPins.Nodup
  ∧ c.pwmbind[c.motorA.pwm] ≠ none ∧ c.pwmbind[c.motorB.pwm] ≠ none
  ∧ (∀ j k : AnaChannel, c.anapin[j] = c.anapin[k] → j = k)
  ∧ c.pwmInitA &&& 0xA3#8 = 0xA3#8 ∧ c.pwmInitB &&& 0x07#8 ≠ 0#8

/-- The reference configuration CFG0 (R8; its values are the spec's, most of them from general knowledge,
G1 to G3, G7, G8, G10). -/
def cfg0 : Config where
  pinmap := #v[(.D, 0), (.D, 1), (.D, 2), (.D, 3), (.D, 4), (.D, 5), (.D, 6), (.D, 7),
    (.B, 0), (.B, 1), (.B, 2), (.B, 3), (.B, 4), (.B, 5),
    (.C, 0), (.C, 1), (.C, 2), (.C, 3), (.C, 4), (.C, 5)]
  pwmbind := #v[none, none, none, some 5, none, some 1, some 0, none, none, some 2, some 3, some 4,
    none, none, none, none, none, none, none, none]
  anapin := #v[14, 15, 16, 17, 18, 19]
  motorA := ⟨2, 4, 5⟩
  motorB := ⟨7, 8, 6⟩
  pinEn := 9
  pwmInitA := 0xA3#8
  pwmInitB := 0x02#8
  adcRefInit := 0x4#4
  adcDivInit := 0x7#3
  fClk := 16000000

/-! ### Free values (00_scope.md R11, `draw`): opaque functions of the draw counter of State -/

/-- The level an input-register bit reads where the spec draws it (R42): an input pin, an unmapped bit, a
pin driven PWM or X; at the n-th draw, for each group bit its own (the port `pad_level[g][b]` of R80).
Free value (log 5). -/
opaque envLevel : Nat → Group → BitIx → Bool

/-- The value AdcComplete draws (R140): at the n-th draw, converting the analog input that CHSEL names.
Free value, any of 0..1023 (log 6). -/
opaque conversion : Nat → BitVec 4 → BitVec 10

/-- How many turns of the sequencer pass between a trigger and the converter's AdcComplete; none: it is never
taken (R140 "When it runs is not fixed", R141). Free value (log 7). -/
opaque conversionTime : Nat → Option Nat

/-- What the port `rsp_err` shows while `rsp_valid` = 0: R80 gives no value then. Free value, DESIGN CHOICE
(log 23). -/
opaque rspErrUnpresented : Nat → Bool

/-- What the port `rsp_data` shows while `rsp_valid` = 0 and `rsp_err` is not 1: R80 gives no value then. Free
value, DESIGN CHOICE (log 23). -/
opaque rspDataUnpresented : Nat → Data

end Config

end Sys2Proof
end

