-- ==== Sys2Proof/Machine/State.lean ====
section
/-! DEFINITION. The state of WTIO (10_state.md R21, R22, R24, R32), with the port values and the model's own
fields, and the state after reset (R50). -/

namespace Sys2Proof.Machine

/-- The stored registers (R22). The families are indexed as the rules index them: `DIR_g` and `OUT_g` by
group number, `MCAt` and `MCBt` by timer, `DUTYc` by channel. -/
structure Regs where
  dir   : Vector Byte 3
  out   : Vector Byte 3
  mca   : Vector Byte 3
  mcb   : Vector Byte 3
  duty  : Vector Byte 6
  adsel : Byte
  adcsr : Byte
  adres : BitVec 10
  deriving DecidableEq, Repr

/-- The sequencer state `SEQ` (R24): the accepted command and the index of its next micro-operation. -/
inductive Seq where
  | idle
  | running (cmd : Instr) (k : Nat)
  deriving DecidableEq, Repr

/-- One response: `rsp_err` and `rsp_data` (R80, R98). -/
structure Response where
  err  : Bool
  data : Data
  deriving DecidableEq, Repr

/-- How much of a command one step runs (R72): its whole list as one transition, or one micro-operation.
The model's own choice of observation (log 3). -/
inductive Grain where
  | command
  | micro
  deriving DecidableEq, Repr

/-- Why a step can stop with a fault. The decode faults of R171 are not here: their entry (R174) is a next
state. -/
inductive Fault where
  /-- Raised by the sequencer in a state `Running(cmd, k)` whose k is past the last micro-operation of cmd.
  No run reaches one (R24), so this is safe (log 10). -/
  | sequencerOutOfRange
  deriving DecidableEq, Repr

/-- Why a step can refuse. -/
inductive Refusal where
  /-- The instruction named has no meaning in the model; raised by no arm of exec. Safe. -/
  | notModelled (mnemonic : String)
  /-- Raised by a meaning given a term that no command word spells (Instr.wf false); the decoder answers
  none such. Safe (log 11). -/
  | notACommand
  deriving DecidableEq, Repr

/-- The state of the block. -/
structure State where
  /-- The configuration (R5 to R8); no step writes it (log 1). -/
  cfg : Config
  /-- The 21 stored registers (R22). -/
  regs : Regs
  /-- The fault latch FAULT, FCAUSE, FWORD (R32). -/
  fault : Bool
  fcause : BitVec 3
  fword : Word
  /-- The sequencer state (R24). -/
  seq : Seq
  /-- The command words the host has still to present, the next one first; empty is `cmd_valid` = 0 (R80,
  R81; log 2). -/
  host : List Word
  /-- The response port: the response of the step just taken, none where `rsp_valid` = 0 (R80; log 4). -/
  rsp : Option Response
  /-- The model's own: how many draws have been taken; the free values are functions of it (log 5). -/
  draws : Nat
  /-- The model's own: how many turns of the sequencer pass before the converter takes an enabled
  AdcComplete, none for never (R140, R141; log 7). -/
  convLeft : Option Nat
  /-- The model's own: the grain of the step (R72; log 3). -/
  grain : Grain
  deriving DecidableEq, Repr

/-- Every stored register at its reset value (R50). -/
def Regs.reset : Regs where
  dir := #v[0, 0, 0]
  out := #v[0, 0, 0]
  mca := #v[0, 0, 0]
  mcb := #v[0, 0, 0]
  duty := #v[0, 0, 0, 0, 0, 0]
  adsel := 0
  adcsr := 0
  adres := 0

/-- The block after reset (R50, R190), at the reference configuration CFG0 (R8), with no word presented. -/
def State.reset : State where
  cfg := Config.cfg0
  regs := Regs.reset
  fault := false
  fcause := 0
  fword := 0
  seq := .idle
  host := []
  rsp := none
  draws := 0
  convLeft := none
  grain := .command

end Sys2Proof.Machine
end

