-- ==== Sys2Proof/Machine/Operands.lean ====
section
/-! DEFINITION. Every operand form: bit masks and register arithmetic (00_scope.md R10, R11), the registers
by name (10_state.md R22), and the resolution of pins and channels (20_memory.md R61 to R63). -/

namespace Sys2Proof.Machine

/-! ### 8-bit arithmetic (R10, R11) -/

/-- `mask(b) = 1 << b` at 8 bits (R10). -/
def mask (b : BitIx) : Byte := 1#8 <<< b.val

/-- `v | mask(b)`. -/
def bitSet (v : Byte) (b : BitIx) : Byte := v ||| mask b

/-- `v & ~mask(b)`. -/
def bitClr (v : Byte) (b : BitIx) : Byte := v &&& ~~~(mask b)

/-- `(old & ~m) | (v & m)`. -/
def fieldWrite (old m v : Byte) : Byte := (old &&& ~~~m) ||| (v &&& m)

/-- `zext_16` of a bit (R98). -/
def zextBit (x : Bool) : Data := if x then 1#16 else 0#16

/-! ### The stored 8-bit registers by name (R22) -/

/-- `Reg[h]` of a stored 8-bit register. -/
def Regs.get (f : Regs) : Reg8 → Byte
  | .dir g => f.dir[g.num]
  | .out g => f.out[g.num]
  | .mca t => f.mca[t]
  | .mcb t => f.mcb[t]
  | .duty c => f.duty[c]
  | .adsel => f.adsel
  | .adcsr => f.adcsr

/-- `Reg[h] <- v` of a stored 8-bit register. -/
def Regs.set (f : Regs) (r : Reg8) (v : Byte) : Regs :=
  match r with
  | .dir g => { f with dir := f.dir.set g.num v }
  | .out g => { f with out := f.out.set g.num v }
  | .mca t => { f with mca := f.mca.set t v }
  | .mcb t => { f with mcb := f.mcb.set t v }
  | .duty c => { f with duty := f.duty.set c v }
  | .adsel => { f with adsel := v }
  | .adcsr => { f with adcsr := v }

/-- The value of a stored 8-bit register in a state. -/
def State.reg (s : State) (r : Reg8) : Byte := s.regs.get r

/-- The state with one stored 8-bit register written. -/
def State.setReg (s : State) (r : Reg8) (v : Byte) : State := { s with regs := s.regs.set r v }

/-- One bit of a stored 8-bit register. -/
def State.bit (s : State) (r : Reg8) (b : BitIx) : Bool := (s.reg r).getLsbD b.val

/-! ### Pin resolution (R61) -/

/-- `PINMAP(p)` (R5). -/
def pinAt (c : Config) (p : Pin) : Group × BitIx := c.pinmap[p]

/-- The direction register of a pin, `H_DIR(g)`. -/
def dirOf (c : Config) (p : Pin) : Reg8 := .dir (pinAt c p).1

/-- The output register of a pin, `H_OUT(g)`. -/
def outOf (c : Config) (p : Pin) : Reg8 := .out (pinAt c p).1

/-- The input view of a pin, `H_IN(g)`. -/
def inpOf (c : Config) (p : Pin) : Handle := .inp (pinAt c p).1

/-- The bit of a pin in its group's registers. -/
def bitOf (c : Config) (p : Pin) : BitIx := (pinAt c p).2

/-- The pin that a group bit carries, if any (R42: "if no pin p has PINMAP(p) == (g, b)"). PINMAP is
injective (R5), so at most one does; in a configuration that breaks R5 the lowest counts (log 21). -/
def pinOfBit (c : Config) (g : Group) (b : BitIx) : Option Pin :=
  (List.finRange 20).find? (fun p => decide (pinAt c p = (g, b)))

/-! ### Channel resolution (R62, R6, R26) -/

/-- `PWMBIND(p)` (R6). -/
def channelOf (c : Config) (p : Pin) : Option Channel := c.pwmbind[p]

/-- The timer of a channel, `c div 2` (R6). -/
def timerOf (ch : Channel) : Timer := ⟨ch.val / 2, by omega⟩

/-- `CObit(c) = 7 - 2 (c mod 2)` (R26). -/
def coBit (ch : Channel) : BitIx := ⟨7 - 2 * (ch.val % 2), by omega⟩

/-! ### Analog-channel resolution (R63) -/

/-- The channel operand, zero-extended to the 4-bit CHSEL field, as the value of the masked write (R138). -/
def chselValue (k : AnaChannel) : Byte := BitVec.ofNat 8 k.val

/-- `ANAPIN(k)`: the pin of an analog channel (R63). No rule reads it. -/
def anaPin (c : Config) (k : AnaChannel) : Pin := c.anapin[k]

/-! ### Motor operands (R150, R151) -/

/-- `Pins(m)` (R151). -/
def motorPins (c : Config) : Motor → MotorPins
  | .A => c.motorA
  | .B => c.motorB

/-- What the encoder answers (R150). -/
structure Encoded where
  dir1 : Bool
  dir2 : Bool
  duty : Byte
  deriving DecidableEq, Repr

/-- The encoder `Enc` (R150): FORWARD, REVERSE or BRAKE, by the sign of the speed. -/
def enc (v : Int) : Encoded :=
  if v > 0 then ⟨true, false, BitVec.ofInt 8 v⟩
  else if v < 0 then ⟨false, true, BitVec.ofInt 8 (-v)⟩
  else ⟨true, true, 0#8⟩

end Sys2Proof.Machine
end

