-- ==== Sys2Proof/Machine/Flags.lean ====
section
/-! DEFINITION. The status flag, the enabling conditions and the field reads (10_state.md R26, R27, R29, R30,
R33, R41; 43_adc.md R140). WTIO has no condition codes (R33). -/

namespace Sys2Proof.Machine

/-- ADCSR.BUSY, bit 6 (R30): a conversion is in flight. -/
def busy (s : State) : Bool := s.bit .adcsr 6

/-- ADCSR.EN, bit 7 (R30). -/
def adcEnabled (s : State) : Bool := s.bit .adcsr 7

/-- AdcComplete is "enabled exactly when ADCSR[7] = 1 (EN) and ADCSR[6] = 1 (BUSY)" (R140). -/
def adcCompleteEnabled (s : State) : Bool := adcEnabled s && busy s

/-- ADCSR.DIV, bits 2:0 (R30). -/
def adcDiv (s : State) : BitVec 3 := (s.reg .adcsr).extractLsb' 0 3

/-- ADSEL.CHSEL, bits 3:0 (R29). -/
def chsel (s : State) : BitVec 4 := (s.reg .adsel).extractLsb' 0 4

/-- ADSEL.REFCFG, bits 7:4 (R29). -/
def refcfg (s : State) : BitVec 4 := (s.reg .adsel).extractLsb' 4 4

/-- MCAt.WGM, bits 1:0 (R26). -/
def wgm (s : State) (t : Timer) : BitVec 2 := (s.reg (.mca t)).extractLsb' 0 2

/-- MCBt.CS, bits 2:0 (R27). -/
def clockSelect (s : State) (t : Timer) : BitVec 3 := (s.reg (.mcb t)).extractLsb' 0 3

/-- `PwmActive(t)` (R41). -/
def pwmActive (s : State) (t : Timer) : Bool := (wgm s t == 0b11#2) && (clockSelect s t != 0#3)

/-- The timer-output connection of a channel, `MCA(c div 2)[CObit(c)]` (R26, R40). -/
def connected (s : State) (ch : Channel) : Bool := s.bit (.mca (timerOf ch)) (coBit ch)

end Sys2Proof.Machine
end

