-- ==== Sys2Proof/Machine/Pads.lean ====
section
/-! DEFINITION. The views: what the pads carry and what the input registers read (10_state.md R25, R40, R42). -/

namespace Sys2Proof.Machine

/-- `Drive = Z | L | H | PWM(d) | X` (R40). PWM(d) is symbolic and X is a drive without a meaning. -/
inductive Drive where
  | Z
  | L
  | H
  | PWM (d : Byte)
  | X
  deriving DecidableEq, Repr

/-- The pin driven from its output-register bit (R40, last case). -/
def outDrive (s : State) (p : Pin) : Drive :=
  if s.bit (outOf s.cfg p) (bitOf s.cfg p) then .H else .L

/-- The pin of an output with a channel: the timer if the channel is connected, else the output bit (R40). -/
def channelDrive (s : State) (p : Pin) (ch : Channel) : Drive :=
  if connected s ch then
    if pwmActive s (timerOf ch) then .PWM (s.reg (.duty ch)) else .X
  else outDrive s p

/-- `PadDrive(p)` (R40). -/
def padDrive (s : State) (p : Pin) : Drive :=
  if s.bit (dirOf s.cfg p) (bitOf s.cfg p) then
    match channelOf s.cfg p with
    | some ch => channelDrive s p ch
    | none => outDrive s p
  else .Z

/-- The bit a pad's drive settles: H reads 1, L reads 0, every other drive reads the level drawn (R42). -/
def levelOfDrive (d : Drive) (drawn : Bool) : Bool :=
  match d with
  | .H => true
  | .L => false
  | .Z => drawn
  | .PWM _ => drawn
  | .X => drawn

/-- `PadLevel(g, b)` (R42); the draw is the environment's level at this state's draw count (log 5). -/
def padLevel (s : State) (g : Group) (b : BitIx) : Bool :=
  match pinOfBit s.cfg g b with
  | none => Config.envLevel s.draws g b
  | some p => levelOfDrive (padDrive s p) (Config.envLevel s.draws g b)

/-- The input view `IN_g`, bit by bit (R25). -/
def inputView (s : State) (g : Group) : Byte := BitVec.ofFnLE (fun b : Fin 8 => padLevel s g b)

end Sys2Proof.Machine
end

