-- ==== Sys2Proof/Machine/Ops.lean ====
section
/-! DEFINITION. The shared operations: the micro-operations (00_scope.md R11), the response (30_encoding.md
R98), the fault entry and the refusal of words (60_exceptions.md R174, R175), the converter's step
(43_adc.md R140), and running a command's list (10_state.md R24, 20_memory.md R72). -/

namespace Sys2Proof.Machine

/-! ### Micro-operations -/

/-- One entry of a command's list: a register micro-operation of R11, a whole-register read (`MemRead` of
R11), one of the two steps that only AREAD has (R138 steps 1 and 2), or an index at which the rule performs no
micro-operation (R152 step 13, R124 corner case (a); log 12). -/
inductive MicroOp where
  | regSet (r : Reg8) (b : BitIx)
  | regClr (r : Reg8) (b : BitIx)
  | regTst (h : Handle) (b : BitIx)
  | regWr (r : Reg8) (v : Byte)
  | regFld (r : Reg8) (m v : Byte)
  | regRead (h : Handle)
  | trigger
  | pollBusy
  | skip
  deriving DecidableEq, Repr

/-- The value of a handle, zero-extended to 16 bits: a stored register, an input view bit by bit, or ADRES
(R25, R66, R103). -/
def readHandle (s : State) : Handle → Data
  | .reg r => (s.reg r).setWidth 16
  | .inp g => (inputView s g).setWidth 16
  | .adres => s.regs.adres.setWidth 16

/-- `RegTst(h, b)`: one bit of a stored register or of a view (R11, R102). ADRES has no bit numbering (R102);
TESTBIT takes no such handle. -/
def readBit (s : State) (h : Handle) (b : BitIx) : Bool :=
  match h with
  | .reg r => s.bit r b
  | .inp g => padLevel s g b
  | .adres => s.regs.adres.getLsbD b.val

/-- The state after a read: nothing the spec names changes (R68); a read of an input view is a fresh draw
(R42), so the next one finds the draw counter advanced (log 5). -/
def afterRead (s : State) : Handle → State
  | .reg _ => s
  | .inp _ => { s with draws := s.draws + 1 }
  | .adres => s

/-- AREAD's trigger (R138 step 1): BUSY <- 1; when the converter will complete is drawn (R140, log 7). -/
def startConversion (s : State) : State :=
  { s.setReg .adcsr (bitSet (s.reg .adcsr) 6) with
    convLeft := Config.conversionTime s.draws, draws := s.draws + 1 }

/-- The state a micro-operation leaves (R11, R75). -/
def microState (op : MicroOp) (s : State) : State :=
  match op with
  | .regSet r b => s.setReg r (bitSet (s.reg r) b)
  | .regClr r b => s.setReg r (bitClr (s.reg r) b)
  | .regTst h _ => afterRead s h
  | .regWr r v => s.setReg r v
  | .regFld r m v => s.setReg r (fieldWrite (s.reg r) m v)
  | .regRead h => afterRead s h
  | .trigger => startConversion s
  | .pollBusy => s
  | .skip => s

/-- The value the command responds with when this micro-operation is its last: the bit tested, the register
read, and 0 for every other (R98). -/
def microValue (op : MicroOp) (s : State) : Data :=
  match op with
  | .regSet _ _ => 0#16
  | .regClr _ _ => 0#16
  | .regTst h b => zextBit (readBit s h b)
  | .regWr _ _ => 0#16
  | .regFld _ _ _ => 0#16
  | .regRead h => readHandle s h
  | .trigger => 0#16
  | .pollBusy => 0#16
  | .skip => 0#16

/-! ### Responses and refusals -/

/-- `respond(v)`: the value on the response port, and SEQ Idle (R11, R24, R98). -/
def respond (v : Data) (s : State) : State := { s with rsp := some ⟨false, v⟩, seq := .idle }

/-- The refusal of a word: `rsp_err` = 1, `rsp_data` = 0, SEQ Idle, nothing else (R174, R175, R98). -/
def refuse (s : State) : State := { s with rsp := some ⟨true, 0#16⟩, seq := .idle }

/-- The FCAUSE codes (R171). -/
def causeCode : Cause → BitVec 3
  | .illegalOp => 1#3
  | .reservedField => 2#3
  | .badHandle => 3#3
  | .badPin => 4#3
  | .badChannel => 5#3
  | .badSpeed => 6#3

/-- Taking the fault: the entry of R174 for the word that spells no command. -/
def faultEntry (c : Cause) (w : Word) (s : State) : State :=
  if s.fault then refuse s
  else refuse { s with fault := true, fcause := causeCode c, fword := w }

/-! ### The converter -/

/-- `AdcComplete` (R140): in one step ADRES takes the converted value and BUSY falls. -/
def adcComplete (s : State) : State :=
  { s with
    regs := { (s.regs.set .adcsr (bitClr (s.reg .adcsr) 6)) with
      adres := Config.conversion s.draws (chsel s) }
    draws := s.draws + 1
    convLeft := none
    rsp := none }

/-! ### Running a command -/

/-- The state at `Running(cmd, k)` after a step that responds nothing (R24). -/
def atIndex (i : Instr) (k : Nat) (s : State) : State := { s with seq := .running i k, rsp := none }

/-- A command's list from index k, run as one transition (R72): each micro-operation in order, the response
with the last one (log 13); the wait of AREAD holds the command at its index while BUSY is 1 (R139). -/
def runOps (i : Instr) : List MicroOp → Nat → State → State
  | [], k, s => atIndex i k s
  | [op], _, s => respond (microValue op s) (microState op s)
  | op :: next :: rest, k, s =>
    if op = .pollBusy ∧ busy s = true then atIndex i k s
    else runOps i (next :: rest) (k + 1) (microState op s)

/-- The whole of a command from its first micro-operation. -/
def runCommand (i : Instr) (ops : List MicroOp) (s : State) : Host.Outcome State Fault Refusal :=
  .next (runOps i ops 0 s)

end Sys2Proof.Machine
end

