-- ==== Sys2Proof/Machine/Adc.lean ====
section
/-! DEFINITION. The ADC channel selector and conversion-complete synchronizer: INITADC, AREAD (43_adc.md R136,
R138). -/

namespace Sys2Proof.Machine

/-- `ADC_REF_INIT << 4` (R136). -/
def refInitValue (c : Config) : Byte := (c.adcRefInit ++ 0#4 : BitVec 8)

/-- `0x80 | ADC_DIV_INIT` (R136). -/
def divInitValue (c : Config) : Byte := 0x80#8 ||| c.adcDivInit.setWidth 8

/-- R136: two masked field writes, in this order. -/
def initadcOps (c : Config) : List MicroOp :=
  [.regFld .adsel 0xF0#8 (refInitValue c), .regFld .adcsr 0x87#8 (divInitValue c)]

/-- R136: select the reference, enable the converter, select its clock divider. -/
def execInitadc (s : State) : Host.Outcome State Fault Refusal :=
  runCommand .initadc (initadcOps s.cfg) s

/-- R138, indices 0 to 3. -/
def areadOps (k : AnaChannel) : List MicroOp :=
  [.regFld .adsel 0x0F#8 (chselValue k), .trigger, .pollBusy, .regRead .adres]

/-- R138: select the channel, trigger, and wait at index 2 for the converter (R139). The response comes in a
later step, after AdcComplete, or never (R141, R142; log 9). -/
def execAread (k : AnaChannel) (s : State) : Host.Outcome State Fault Refusal :=
  runCommand (.aread k) (areadOps k) s

end Sys2Proof.Machine
end

