-- ==== Sys2Proof/Machine/Gpio.lean ====
section
/-! DEFINITION. The GPIO port unit: PINMODE, DWRITE, DREAD (41_gpio.md R110 to R112). -/

namespace Sys2Proof.Machine

/-- RegSet or RegClr, by the level wanted (R110, R111). -/
def regLevel (r : Reg8) (b : BitIx) (v : Bool) : MicroOp := if v then .regSet r b else .regClr r b

/-- The micro-operation of PINMODE p, v (R110). -/
def modeOp (c : Config) (p : Pin) (v : Bool) : MicroOp := regLevel (dirOf c p) (bitOf c p) v

/-- The micro-operation of DWRITE p, v (R111); `Lvl(p, v)` of R153. -/
def levelOp (c : Config) (p : Pin) (v : Bool) : MicroOp := regLevel (outOf c p) (bitOf c p) v

/-- R110. -/
def pinmodeOps (c : Config) (p : Pin) (v : Bool) : List MicroOp := [modeOp c p v]

/-- R110: make one pin an output or an input. -/
def execPinmode (p : Pin) (v : Bool) (s : State) : Host.Outcome State Fault Refusal :=
  runCommand (.pinmode p v) (pinmodeOps s.cfg p v) s

/-- R111. -/
def dwriteOps (c : Config) (p : Pin) (v : Bool) : List MicroOp := [levelOp c p v]

/-- R111: set the output level of one pin. -/
def execDwrite (p : Pin) (v : Bool) (s : State) : Host.Outcome State Fault Refusal :=
  runCommand (.dwrite p v) (dwriteOps s.cfg p v) s

/-- R112. -/
def dreadOps (c : Config) (p : Pin) : List MicroOp := [.regTst (inpOf c p) (bitOf c p)]

/-- R112: respond with the level of one pin. -/
def execDread (p : Pin) (s : State) : Host.Outcome State Fault Refusal :=
  runCommand (.dread p) (dreadOps s.cfg p) s

end Sys2Proof.Machine
end

