-- ==== Sys2Proof/Machine/Pwm.lean ====
section
/-! DEFINITION. The PWM timer-output multiplexer and duty-register bank: INITPWM, PWMWR (42_pwm.md R121, R124). -/

namespace Sys2Proof.Machine

/-- The micro-operation of PWMWR p, d (R124); `Duty(p, d)` of R153. A pin without a channel has none. -/
def dutyOp (c : Config) (p : Pin) (d : Byte) : MicroOp :=
  match channelOf c p with
  | some ch => .regWr (.duty ch) d
  | none => .skip

/-- The six whole-register writes of R121, timers 0, 1, 2, A before B. -/
def initpwmOps (c : Config) : List MicroOp :=
  [.regWr (.mca 0) c.pwmInitA, .regWr (.mcb 0) c.pwmInitB,
   .regWr (.mca 1) c.pwmInitA, .regWr (.mcb 1) c.pwmInitB,
   .regWr (.mca 2) c.pwmInitA, .regWr (.mcb 2) c.pwmInitB]

/-- R121: all three timers in fast-PWM mode with both outputs connected. -/
def execInitpwm (s : State) : Host.Outcome State Fault Refusal :=
  runCommand .initpwm (initpwmOps s.cfg) s

/-- R124. -/
def pwmwrOps (c : Config) (p : Pin) (d : Byte) : List MicroOp := [dutyOp c p d]

/-- R124: write the duty of the channel bound to a pin; nothing for a pin without one. -/
def execPwmwr (p : Pin) (d : Byte) (s : State) : Host.Outcome State Fault Refusal :=
  runCommand (.pwmwr p d) (pwmwrOps s.cfg p d) s

end Sys2Proof.Machine
end

