-- ==== Sys2Proof/Machine/Motor.lean ====
section
/-! DEFINITION. The motor command encoder's commands: SETUPM, SETMOTOR, DRIVEA, DRIVEB, STOPALL (44_motor.md
R152 to R156). The encoder itself is `enc` of Operands.lean (R150). -/

namespace Sys2Proof.Machine

/-- `Out(p)` of R152: the micro-operation of PINMODE p, 1. -/
def outPinOp (c : Config) (p : Pin) : MicroOp := modeOp c p true

/-- Step 13 of R152: disconnect the enable pin's channel, if it has one. -/
def disconnectOp (c : Config) (p : Pin) : MicroOp :=
  match channelOf c p with
  | some ch => .regClr (.mca (timerOf ch)) (coBit ch)
  | none => .skip

/-- R152, indices 0 to 14. -/
def setupmOps (c : Config) : List MicroOp :=
  [outPinOp c c.motorA.d1, outPinOp c c.motorA.d2, outPinOp c c.motorA.pwm,
   outPinOp c c.motorB.d1, outPinOp c c.motorB.d2, outPinOp c c.motorB.pwm, outPinOp c c.pinEn]
  ++ initpwmOps c
  ++ [disconnectOp c c.pinEn, levelOp c c.pinEn true]

/-- R152: outputs, timers, the enable pin back from its timer, enable high. -/
def execSetupm (s : State) : Host.Outcome State Fault Refusal :=
  runCommand .setupm (setupmOps s.cfg) s

/-- The three micro-operations of SETMOTOR m, v (R153). -/
def motorOps (c : Config) (m : Motor) (v : Int) : List MicroOp :=
  [levelOp c (motorPins c m).d1 (enc v).dir1, levelOp c (motorPins c m).d2 (enc v).dir2,
   dutyOp c (motorPins c m).pwm (enc v).duty]

/-- R153: drive one motor. -/
def execSetmotor (m : Motor) (v : Int) (s : State) : Host.Outcome State Fault Refusal :=
  if speedOk v then runCommand (.setmotor m v) (motorOps s.cfg m v) s else .refused .notACommand

/-- R154: exactly the micro-operations of SETMOTOR A, v. -/
def execDrivea (v : Int) (s : State) : Host.Outcome State Fault Refusal :=
  if speedOk v then runCommand (.drivea v) (motorOps s.cfg .A v) s else .refused .notACommand

/-- R155: exactly the micro-operations of SETMOTOR B, v. -/
def execDriveb (v : Int) (s : State) : Host.Outcome State Fault Refusal :=
  if speedOk v then runCommand (.driveb v) (motorOps s.cfg .B v) s else .refused .notACommand

/-- R156: the three of SETMOTOR A, 0, then the three of SETMOTOR B, 0. -/
def stopallOps (c : Config) : List MicroOp := motorOps c .A 0 ++ motorOps c .B 0

/-- R156: brake both motors. -/
def execStopall (s : State) : Host.Outcome State Fault Refusal :=
  runCommand .stopall (stopallOps s.cfg) s

end Sys2Proof.Machine
end

