-- ==== Sys2Proof/Machine/Primitives.lean ====
section
/-! DEFINITION. SETBIT, CLRBIT, TESTBIT, RDREG (40_rmw_primitives.md R100 to R103). Each command has its list
of micro-operations and its meaning; a term with an operand that no word spells is refused (log 11). -/

namespace Sys2Proof.Machine

/-- R100. -/
def setbitOps (h : Handle) (b : BitIx) : List MicroOp :=
  match h.bitTarget with
  | some r => [.regSet r b]
  | none => []

/-- R100: set one bit, the other seven preserved. -/
def execSetbit (h : Handle) (b : BitIx) (s : State) : Host.Outcome State Fault Refusal :=
  if h.bitWritable then runCommand (.setbit h b) (setbitOps h b) s else .refused .notACommand

/-- R101. -/
def clrbitOps (h : Handle) (b : BitIx) : List MicroOp :=
  match h.bitTarget with
  | some r => [.regClr r b]
  | none => []

/-- R101: clear one bit, the other seven preserved. -/
def execClrbit (h : Handle) (b : BitIx) (s : State) : Host.Outcome State Fault Refusal :=
  if h.bitWritable then runCommand (.clrbit h b) (clrbitOps h b) s else .refused .notACommand

/-- R102. -/
def testbitOps (h : Handle) (b : BitIx) : List MicroOp := [.regTst h b]

/-- R102: respond with one bit of a register or view. -/
def execTestbit (h : Handle) (b : BitIx) (s : State) : Host.Outcome State Fault Refusal :=
  if h.bitTestable then runCommand (.testbit h b) (testbitOps h b) s else .refused .notACommand

/-- R103. -/
def rdregOps (h : Handle) : List MicroOp := [.regRead h]

/-- R103: respond with a whole register or view. -/
def execRdreg (h : Handle) (s : State) : Host.Outcome State Fault Refusal :=
  runCommand (.rdreg h) (rdregOps h) s

end Sys2Proof.Machine
end

