-- ==== Sys2Proof/Machine/Dispatch.lean ====
section
/-! DEFINITION. One arm per command (30_encoding.md R90). -/

namespace Sys2Proof.Machine

def exec (i : Instr) (s : State) : Host.Outcome State Fault Refusal :=
  match i with
  | .setbit h b => Sys2Proof.Machine.execSetbit h b s
  | .clrbit h b => Sys2Proof.Machine.execClrbit h b s
  | .testbit h b => Sys2Proof.Machine.execTestbit h b s
  | .rdreg h => Sys2Proof.Machine.execRdreg h s
  | .pinmode p v => Sys2Proof.Machine.execPinmode p v s
  | .dwrite p v => Sys2Proof.Machine.execDwrite p v s
  | .dread p => Sys2Proof.Machine.execDread p s
  | .pwmwr p d => Sys2Proof.Machine.execPwmwr p d s
  | .aread k => Sys2Proof.Machine.execAread k s
  | .initpwm => Sys2Proof.Machine.execInitpwm s
  | .initadc => Sys2Proof.Machine.execInitadc s
  | .setupm => Sys2Proof.Machine.execSetupm s
  | .setmotor m v => Sys2Proof.Machine.execSetmotor m v s
  | .drivea v => Sys2Proof.Machine.execDrivea v s
  | .driveb v => Sys2Proof.Machine.execDriveb v s
  | .stopall => Sys2Proof.Machine.execStopall s

end Sys2Proof.Machine
end

