-- ==== Sys2Proof/Machine/Sequencer.lean ====
section
/-! DEFINITION. The command sequencer micro-operation by micro-operation (10_state.md R24), the acceptance of a
word (30_encoding.md R81), and the turns of the sequencer and the converter while a command runs
(43_adc.md R139 to R142). -/

namespace Sys2Proof.Machine

/-- The expansion of a command into its micro-operations (R24). -/
def opsOf (c : Config) : Instr → List MicroOp
  | .setbit h b => setbitOps h b
  | .clrbit h b => clrbitOps h b
  | .testbit h b => testbitOps h b
  | .rdreg h => rdregOps h
  | .pinmode p v => pinmodeOps c p v
  | .dwrite p v => dwriteOps c p v
  | .dread p => dreadOps c p
  | .pwmwr p d => pwmwrOps c p d
  | .aread k => areadOps k
  | .initpwm => initpwmOps c
  | .initadc => initadcOps c
  | .setupm => setupmOps c
  | .setmotor m v => motorOps c m v
  | .drivea v => motorOps c .A v
  | .driveb v => motorOps c .B v
  | .stopall => stopallOps c

/-- One micro-operation step of the sequencer at `Running(cmd, k)` (R24): it advances k by one, the last one
responds and sets Idle, and the wait of AREAD repeats while ADCSR[6] = 1 (R139). -/
def seqStep (i : Instr) (k : Nat) (s : State) : Host.Outcome State Fault Refusal :=
  match (opsOf s.cfg i)[k]? with
  | none => .fault .sequencerOutOfRange
  | some op =>
    if op = .pollBusy ∧ busy s = true then .next (atIndex i k s)
    else if k + 1 = (opsOf s.cfg i).length then .next (respond (microValue op s) (microState op s))
    else .next (atIndex i (k + 1) (microState op s))

/-- A step while a command runs (R20). Where AdcComplete is enabled, whose turn it is is `convLeft`: the
converter's when it is 0, else the sequencer's, one turn nearer (R140, R141; log 7, log 8). -/
def runningStep (i : Instr) (k : Nat) (s : State) : Host.Outcome State Fault Refusal :=
  if adcCompleteEnabled s then
    match s.convLeft with
    | some 0 => .next (adcComplete s)
    | some (n + 1) => seqStep i k { s with convLeft := some n }
    | none => seqStep i k s
  else seqStep i k s

/-- A decoded command is accepted (R24, R81): run whole, or started at index 0, as the grain says (R72). -/
def startCommand (i : Instr) (s : State) : Host.Outcome State Fault Refusal :=
  match s.grain with
  | .command => exec i s
  | .micro => .next (atIndex i 0 s)

/-- The acceptance of a presented word (R81): refused while FAULT = 1 (R175), else decoded (R91) and then a
command or the fault entry (R174). -/
def acceptWord (w : Word) (s : State) : Host.Outcome State Fault Refusal :=
  if s.fault then .next (refuse s)
  else
    match decode w with
    | .command i => startCommand i s
    | .refused c => .next (faultEntry c w s)

/-- A step in which no word is presented: no state changes (R207), and no response is presented. -/
def idleStep (s : State) : Host.Outcome State Fault Refusal := .next { s with rsp := none }

/-- A step with SEQ Idle: the host's next word is accepted, if it presents one (R81). -/
def portStep (s : State) : Host.Outcome State Fault Refusal :=
  match s.host with
  | [] => idleStep s
  | w :: rest => acceptWord w { s with host := rest }

end Sys2Proof.Machine
end

