-- ==== Sys2Proof/Machine/Step.lean ====
section
/-! DEFINITION. One step of WTIO (10_state.md R20, R24; 30_encoding.md R81), and the placing of a word where the
next step takes it. -/

namespace Sys2Proof.Machine

/-- One step: with SEQ Idle the port accepts the host's next word, with SEQ Running the sequencer or the
converter has its turn. -/
def step (s : State) : Host.Outcome State Fault Refusal :=
  match s.seq with
  | .idle => portStep s
  | .running i k => runningStep i k s

/-- `s` with a word presented so that the very next step accepts and runs it whole: the word first in the
host's list, SEQ Idle, no fault latched and the command grain, all of which a word needs to run (log 14). -/
def State.withFetchWord (s : State) (nbits w : Nat) : State :=
  { s with
    host := BitVec.ofNat 24 (w % 2 ^ nbits) :: s.host
    seq := .idle
    fault := false
    fcause := 0
    fword := 0
    grain := .command }

end Sys2Proof.Machine
end

