-- ==== Sys2Proof/Machine/Ports.lean ====
section
/-! DEFINITION. The output ports of the block (30_encoding.md R80) and what the outside can see of a state
(10_state.md R43). -/

namespace Sys2Proof.Machine

/-- `cmd_ready`: "1 exactly when SEQ = Idle" (R80). -/
def cmdReady (s : State) : Bool := decide (s.seq = .idle)

/-- `cmd_valid` (R80). -/
def cmdValid (s : State) : Bool := !s.host.isEmpty

/-- `rsp_valid` (R80). -/
def rspValid (s : State) : Bool := s.rsp.isSome

/-- `rsp_err` (R80) while a response is presented. R80 gives it no value while `rsp_valid` = 0: there it is a free
value, the model's choice (DESIGN CHOICE, log 23). -/
def rspErr (s : State) : Bool :=
  match s.rsp with
  | some r => r.err
  | none => Config.rspErrUnpresented s.draws

/-- `rsp_data` (R80, R98) while a response is presented. R80 gives it no value while `rsp_valid` = 0: there it is a
free value, the model's choice (DESIGN CHOICE, log 23), but for R80's "0 when `rsp_err` = 1", which the model keeps
there too. -/
def rspData (s : State) : Data :=
  match s.rsp with
  | some r => r.data
  | none => if rspErr s then 0x0000#16 else Config.rspDataUnpresented s.draws

/-- `pad[p]`, p = 0..19 (R80). -/
def pads (s : State) : List Drive := (List.finRange 20).map (padDrive s)

/-- What the outside sees of a state (R43): the response, the pads, the fault outputs, and whether the port
is ready (R34). -/
structure Observation where
  ready  : Bool
  rsp    : Option Response
  pads   : List Drive
  fault  : Bool
  fcause : BitVec 3
  fword  : Word
  deriving DecidableEq, Repr

/-- The observation of a state (R43). -/
def observe (s : State) : Observation :=
  ⟨cmdReady s, s.rsp, pads s, s.fault, s.fcause, s.fword⟩

end Sys2Proof.Machine
end

