-- ==== Sys2Proof/WellFormed.lean ====
section
/-! DEFINITION. Which terms of `Instr` are commands: the operand constraints of 30_encoding.md R90 that the
operand types do not already carry. -/

namespace Sys2Proof

/-- A term that some command word spells (R90). Pins, channels, bits and levels are in range by their types. -/
def Instr.wf : Instr → Bool
  | .setbit h _ => h.bitWritable
  | .clrbit h _ => h.bitWritable
  | .testbit h _ => h.bitTestable
  | .rdreg _ => true
  | .pinmode _ _ => true
  | .dwrite _ _ => true
  | .dread _ => true
  | .pwmwr _ _ => true
  | .aread _ => true
  | .initpwm => true
  | .initadc => true
  | .setupm => true
  | .setmotor _ v => speedOk v
  | .drivea v => speedOk v
  | .driveb v => speedOk v
  | .stopall => true

end Sys2Proof
end

