-- ==== Sys2Proof/Safety.lean ====
section
/-! DEFINITION. The terms claims are stated in: runs, frames, completed commands, refused words, and the
invariant of every reachable state (10_state.md R35). -/

namespace Sys2Proof.Machine

/-- The state after n steps, or the first stop. -/
def runSteps : Nat → State → Host.Outcome State Fault Refusal
  | 0, s => .next s
  | n + 1, s =>
    match step s with
    | .next t => runSteps n t
    | .fault r => .fault r
    | .refused r => .refused r

/-- Between s and t every stored register but those listed is unchanged, and so are ADRES, the
configuration, the fault latch, the host's words and the grain (R75). -/
structure Frame (s t : State) (written : List Reg8) : Prop where
  regs : ∀ r, r ∉ written → t.reg r = s.reg r
  adres : t.regs.adres = s.regs.adres
  cfg : t.cfg = s.cfg
  fault : t.fault = s.fault
  fcause : t.fcause = s.fcause
  fword : t.fword = s.fword
  host : t.host = s.host
  grain : t.grain = s.grain

/-- No draw was taken and the converter's turn is as it was (the model's own fields). -/
def NoDraw (s t : State) : Prop := t.draws = s.draws ∧ t.convLeft = s.convLeft

/-- The command completed with this response (R24, R98). -/
def Completed (t : State) (v : Data) : Prop := t.seq = .idle ∧ t.rsp = some ⟨false, v⟩

/-- Every bit of every stored 8-bit register is unchanged but those listed. -/
def BitsKept (s t : State) (written : List (Reg8 × BitIx)) : Prop :=
  ∀ r b, (r, b) ∉ written → t.bit r b = s.bit r b

/-- How the words under one opcode byte are refused (R91, R93): a must-be-zero bit first, then the operand
check of the format. -/
def RefusedUnder (code : Byte) (zeros : Word) (c : Cause) (bad : Word → Prop) : Prop :=
  ∀ w : Word, opField w = code →
    (w &&& zeros ≠ 0#24 → decode w = .refused .reservedField) ∧
    (w &&& zeros = 0#24 → bad w → decode w = .refused c)

/-- The handle numbers that are bit-writable (R90). -/
def bitWritableNumbers : List (BitVec 5) :=
  [0x00#5, 0x01#5, 0x03#5, 0x04#5, 0x06#5, 0x07#5, 0x09#5, 0x0A#5, 0x0B#5, 0x0C#5, 0x0D#5, 0x0E#5]

/-- What holds in every reachable state: R35(a) to (e) and (g) ((f) is the width of ADRES), what R24, R140 and
R174 say of SEQ, CHSEL and the latch. -/
structure Inv (s : State) : Prop where
  /-- R35(a): ADCSR[5:3] = 0. -/
  reservedZero : (s.reg .adcsr).extractLsb' 3 3 = 0#3
  /-- R35(b): ADSEL[3:0] is in 0..5. -/
  chselLegal : (chsel s).toNat < 6
  /-- R35(c): ADSEL[7:4] is 0 or ADC_REF_INIT. -/
  refcfgLegal : refcfg s = 0#4 ∨ refcfg s = s.cfg.adcRefInit
  /-- R35(d): EN and DIV are both at reset or both at their INITADC value. -/
  adcInitTogether : (adcEnabled s = false ∧ adcDiv s = 0#3) ∨
    (adcEnabled s = true ∧ adcDiv s = s.cfg.adcDivInit)
  /-- R35(e): BUSY = 1 only in an AREAD past its trigger, which is at its wait. -/
  busyWaits : busy s = true → ∃ k, s.seq = .running (.aread k) 2
  /-- R24: a running command is a command, at an index of its list. -/
  runningLegal : ∀ i k, s.seq = .running i k → i.wf = true ∧ k < (opsOf s.cfg i).length
  /-- R140: CHSEL is the channel of the running AREAD once it has been selected. -/
  chselHeld : ∀ ch k, s.seq = .running (.aread ch) k → 1 ≤ k → chsel s = BitVec.ofNat 4 ch.val
  /-- R35(g), R174: once FAULT = 1 no command runs. -/
  faultIdle : s.fault = true → s.seq = .idle
  /-- R32, R174: the latch is all zero, or holds a refused word with its cause. -/
  latch : (s.fault = false ∧ s.fcause = 0#3 ∧ s.fword = 0#24) ∨
    (s.fault = true ∧ ∃ c, decode s.fword = .refused c ∧ s.fcause = causeCode c)

end Sys2Proof.Machine
end

