-- ==== Sys2Proof/Certificates/Slice0/Obligations.lean ====
section
/-! DEFINITION. The statements for the provers, each the reading of numbered rules of spec/. -/

open Sys2Proof Sys2Proof.Machine

/-! ## Reset and views -/

/-- R50: every stored register, the latch and the sequencer hold the table's values. Every pad is Z: the sentence
R50 marks as its consequence, derived from R40 and DIR = 0. Every input-register bit reads as a draw: that the draw
is Config.envLevel is the model's choice (log 5). -/
def Obligations.ResetHoldsTheTable : Prop :=
  (∀ r, State.reset.reg r = 0x00#8) ∧ State.reset.regs.adres = 0x000#10 ∧
  State.reset.fault = false ∧ State.reset.fcause = 0#3 ∧ State.reset.fword = 0#24 ∧
  State.reset.seq = .idle ∧
  (∀ g b, padLevel State.reset g b = Config.envLevel State.reset.draws g b) ∧
  (∀ p, padDrive State.reset p = .Z)

/-- R40 with R41 and R26: the pad's drive, read off the bits of the stored registers. -/
def Obligations.PadDriveIsTheMultiplexer : Prop :=
  ∀ (s : State) (p : Pin) (g : Group) (b : BitIx), pinAt s.cfg p = (g, b) →
    (s.bit (.dir g) b = false → padDrive s p = .Z) ∧
    (s.bit (.dir g) b = true → channelOf s.cfg p = none →
      padDrive s p = if s.bit (.out g) b then .H else .L) ∧
    (∀ ch : Channel, ∀ t : Timer, ∀ co : BitIx, s.bit (.dir g) b = true → channelOf s.cfg p = some ch →
      t.val = ch.val / 2 → co.val = 7 - 2 * (ch.val % 2) →
      (s.bit (.mca t) co = false → padDrive s p = if s.bit (.out g) b then .H else .L) ∧
      (s.bit (.mca t) co = true →
        (s.reg (.mca t)).extractLsb' 0 2 = 0b11#2 ∧ (s.reg (.mcb t)).extractLsb' 0 3 ≠ 0#3 →
        padDrive s p = .PWM (s.reg (.duty ch))) ∧
      (s.bit (.mca t) co = true →
        ¬ ((s.reg (.mca t)).extractLsb' 0 2 = 0b11#2 ∧ (s.reg (.mcb t)).extractLsb' 0 3 ≠ 0#3) →
        padDrive s p = .X))

/-- R42 and R25: bit b of a read of IN_g is 1 for drive H, 0 for drive L, and the environment's level for an
unmapped bit and for every other drive; the upper eight bits of the response are 0. -/
def Obligations.InputBitReadsThePad : Prop :=
  ∀ (s : State) (g : Group), s.cfg.Ok →
    (∀ b : BitIx, (∀ p, pinAt s.cfg p ≠ (g, b)) →
      (readHandle s (.inp g)).getLsbD b.val = Config.envLevel s.draws g b) ∧
    (∀ (b : BitIx) (p : Pin), pinAt s.cfg p = (g, b) →
      (padDrive s p = .H → (readHandle s (.inp g)).getLsbD b.val = true) ∧
      (padDrive s p = .L → (readHandle s (.inp g)).getLsbD b.val = false) ∧
      (padDrive s p ≠ .H → padDrive s p ≠ .L →
        (readHandle s (.inp g)).getLsbD b.val = Config.envLevel s.draws g b)) ∧
    (∀ j, 8 ≤ j → (readHandle s (.inp g)).getLsbD j = false)

/-! ## Encoding -/

/-- Words written out from the rules' encodings decode to the commands they stand for (95_test_vectors.md 2.1). -/
def Obligations.SpecWordsDecode : Prop :=
  decode 0x010703#24 = .command (.setbit (.reg (.out .D)) 3) ∧
  decode 0x031607#24 = .command (.testbit (.reg .adcsr) 7) ∧
  decode 0x101301#24 = .command (.pinmode 19 true) ∧
  decode 0x1305C8#24 = .command (.pwmwr 5 200#8) ∧
  decode 0x140500#24 = .command (.aread 5) ∧
  decode 0x21816A#24 = .command (.setmotor .B (-150)) ∧
  decode 0x220101#24 = .command (.drivea (-255)) ∧
  decode 0x240000#24 = .command .stopall ∧
  decode 0x01FF00#24 = .refused .reservedField ∧
  decode 0x220100#24 = .refused .badSpeed

/-- Decoding the word of a command gives the command back, with every operand. -/
def Obligations.DecodeOfEncode : Prop :=
  ∀ i : Instr, i.wf = true → decode (encode i) = .command i

/-- R91: "no two words decode to the same command with the same operands": a word that decodes to a command is
the command's word, and the command is well-formed. -/
def Obligations.EncodeOfDecode : Prop :=
  ∀ (w : Word) (i : Instr), decode w = .command i → encode i = w ∧ i.wf = true

/-- R91, R92, R93, R173: which words are refused, with which cause, the lowest code first. -/
def Obligations.RefusedWordsAndCauses : Prop :=
  (∀ w : Word, decode w = .refused .illegalOp ↔
    opField w ∉ [0x01#8, 0x02#8, 0x03#8, 0x04#8, 0x10#8, 0x11#8, 0x12#8, 0x13#8, 0x14#8, 0x15#8, 0x16#8,
      0x20#8, 0x21#8, 0x22#8, 0x23#8, 0x24#8]) ∧
  (∀ (w : Word) (o : Op), opField w = o.code →
    (decode w = .refused .reservedField ↔ w &&& o.fmask ≠ o.fmatch) ∧
    (decode w = .refused .badHandle ↔ w &&& o.fmask = o.fmatch ∧
      ((o ∈ [.setbit, .clrbit] ∧ aLow5 w ∉ bitWritableNumbers) ∨ (o = .testbit ∧ 0x17 ≤ (aLow5 w).toNat) ∨
        (o = .rdreg ∧ 0x18 ≤ (aLow5 w).toNat))) ∧
    (decode w = .refused .badPin ↔ w &&& o.fmask = o.fmatch ∧
      o ∈ [.pinmode, .dwrite, .dread, .pwmwr] ∧ 20 ≤ (aLow5 w).toNat) ∧
    (decode w = .refused .badChannel ↔ w &&& o.fmask = o.fmatch ∧ o = .aread ∧ 6 ≤ (aLow4 w).toNat) ∧
    (decode w = .refused .badSpeed ↔ w &&& o.fmask = o.fmatch ∧
      o ∈ [.setmotor, .drivea, .driveb] ∧ speedField w = 0x100#9))

/-- A meaning refuses exactly the terms that no word spells (the model's choice, log 11), and every command
answers a next state in every state (R171: "No command faults after it has decoded"). -/
def Obligations.EveryCommandAnswers : Prop :=
  ∀ (i : Instr) (s : State),
    (i.wf = true → ∃ t, exec i s = .next t) ∧ (i.wf = false → exec i s = .refused .notACommand)

/-! ## The step, the port and the fault latch -/

/-- A word presented to an idle, unfaulted block that decodes to a command is accepted and the command run, the
word taken from the host's list; in the micro grain (log 3) it is started at index 0 (R24, R81); and a word
placed by withFetchWord is run by the very next step. -/
def Obligations.StepRunsDecodedCommand : Prop :=
  (∀ (s : State) (w : Word) (rest : List Word) (i : Instr),
    s.seq = .idle → s.fault = false → s.host = w :: rest → decode w = .command i →
    (s.grain = .command → step s = exec i { s with host := rest }) ∧
    (s.grain = .micro → step s = .next { s with host := rest, seq := .running i 0, rsp := none })) ∧
  (∀ (s : State) (w : Word) (i : Instr), decode w = .command i →
    step (s.withFetchWord 24 w.toNat) =
      exec i { s with seq := .idle, fault := false, fcause := 0#3, fword := 0#24, grain := .command })

/-- R174: fault entry. That it stands in the very step that accepts the word is the model's deduction (log 15). -/
def Obligations.FaultEntryLatchesTheFirstWord : Prop :=
  ∀ (s : State) (w : Word) (rest : List Word) (c : Cause),
    s.seq = .idle → s.host = w :: rest → decode w = .refused c →
    ∃ t, step s = .next t ∧ t.rsp = some ⟨true, 0x0000#16⟩ ∧ t.seq = .idle ∧ t.regs = s.regs ∧
      t.cfg = s.cfg ∧ t.host = rest ∧ t.grain = s.grain ∧ NoDraw s t ∧
      (s.fault = false → t.fault = true ∧ t.fword = w ∧
        t.fcause = (match c with
          | .illegalOp => 1#3 | .reservedField => 2#3 | .badHandle => 3#3
          | .badPin => 4#3 | .badChannel => 5#3 | .badSpeed => 6#3)) ∧
      (s.fault = true → t.fault = true ∧ t.fword = s.fword ∧ t.fcause = s.fcause)

/-- R175: while FAULT = 1 every presented word, legal or not, is refused, and nothing changes but the response
port and the host's list; and however many steps follow, no register and no pad changes and the latch keeps
the first fault. -/
def Obligations.FaultedBlockIsFailStop : Prop :=
  (∀ (s : State) (w : Word) (rest : List Word), s.seq = .idle → s.fault = true → s.host = w :: rest →
    step s = .next { s with host := rest, rsp := some ⟨true, 0x0000#16⟩ }) ∧
  (∀ (n : Nat) (s t : State), Inv s → s.fault = true → runSteps n s = .next t →
    t.regs = s.regs ∧ (∀ p, padDrive t p = padDrive s p) ∧
    t.fault = true ∧ t.fcause = s.fcause ∧ t.fword = s.fword)

/-- R207, R81: with no word presented an idle block changes nothing the spec names. That the response port then
presents nothing, a response being presented for one state only, is the model's choice (log 4). -/
def Obligations.IdleStepChangesNothing : Prop :=
  ∀ s : State, s.seq = .idle → s.host = [] → step s = .next { s with rsp := none }

/-- R81, R24: while SEQ is not Idle no word is taken; a step that makes SEQ Idle again gives the response, and no
other step of a running command gives one. -/
def Obligations.OneResponsePerRunningCommand : Prop :=
  ∀ (s t : State) (i : Instr) (k : Nat), s.seq = .running i k → step s = .next t →
    t.host = s.host ∧ (t.seq = .idle ↔ t.rsp ≠ none) ∧ (∀ r, t.rsp = some r → r.err = false)

/-- R21: the configuration never changes. -/
def Obligations.ConfigurationNeverChanges : Prop :=
  ∀ (n : Nat) (s t : State), runSteps n s = .next t → t.cfg = s.cfg

/-! ## The invariant and the micro-operations -/

/-- The invariant holds at reset. -/
def Obligations.ReachableInvariantAtReset : Prop := Inv State.reset

/-- R35: the invariant is kept by every step, in every configuration and at every micro-operation. -/
def Obligations.EveryStepKeepsTheInvariant : Prop :=
  ∀ s t : State, Inv s → step s = .next t → Inv t

/-- No state that meets the invariant stops: each has a next state (R171: no command faults after it has
decoded; R139: a wait is no stop). -/
def Obligations.NoStopFromTheInvariant : Prop :=
  ∀ s : State, Inv s → ∃ t, step s = .next t

/-- R24 and R72: running a command micro-operation by micro-operation from index 0, one step for each entry of
its list, comes to the state that running it as one transition gives; for AREAD, two steps come to the wait
at index 2. The two grains (log 3), the step of an index without a micro-operation (log 12) and the response in
the step of the last index (log 13) are the model's choices. -/
def Obligations.MicroStepsReachTheCommandsState : Prop :=
  ∀ (s : State) (i : Instr), i.wf = true → busy s = false →
    ∃ t, exec i s = .next t ∧
      ((∀ k, i ≠ .aread k) →
        runSteps (opsOf s.cfg i).length { s with seq := .running i 0, rsp := none } = .next t) ∧
      (∀ k, i = .aread k → runSteps 2 { s with seq := .running i 0, rsp := none } = .next t)

/-- R75: RegSet and RegClr change at most their bit, RegFld at most the bits of its mask, RegWr at most its
register; RegTst, the whole read, AREAD's poll and an empty entry (the model's, log 12) change no register, and
AREAD's trigger at most ADCSR[6]; no micro-operation changes anything else the spec names. Of the model's own fields,
only reads and the trigger move the draw counter (log 5), and no read moves the converter's turn (log 7). -/
def Obligations.MicroOperationFrame : Prop :=
  (∀ (s : State) (r : Reg8) (b : BitIx), BitsKept s (microState (.regSet r b) s) [(r, b)] ∧
    BitsKept s (microState (.regClr r b) s) [(r, b)] ∧
    Frame s (microState (.regSet r b) s) [r] ∧ Frame s (microState (.regClr r b) s) [r]) ∧
  (∀ (s : State) (r : Reg8) (m v : Byte), Frame s (microState (.regFld r m v) s) [r] ∧
    (∀ b : BitIx, m.getLsbD b.val = false → (microState (.regFld r m v) s).bit r b = s.bit r b)) ∧
  (∀ (s : State) (r : Reg8) (v : Byte), Frame s (microState (.regWr r v) s) [r]) ∧
  (∀ (s : State) (h : Handle) (b : BitIx),
    Frame s (microState (.regTst h b) s) [] ∧ Frame s (microState (.regRead h) s) [] ∧
    (microState (.regTst h b) s).convLeft = s.convLeft ∧ (microState (.regRead h) s).convLeft = s.convLeft) ∧
  (∀ s : State, Frame s (microState .pollBusy s) [] ∧ Frame s (microState .skip s) []) ∧
  (∀ s : State, Frame s (microState .trigger s) [.adcsr] ∧
    BitsKept s (microState .trigger s) [(.adcsr, 6)]) ∧
  (∀ (s : State) (op : MicroOp), (microState op s).seq = s.seq ∧ (microState op s).rsp = s.rsp ∧
    (op ≠ .trigger → (∀ h b, op ≠ .regTst h b) → (∀ h, op ≠ .regRead h) → NoDraw s (microState op s)))

/-- R31, R140: ADRES changes only in the converter's step, which clears BUSY in the same step. -/
def Obligations.ResultChangesOnlyWithCompletion : Prop :=
  ∀ s t : State, step s = .next t → t.regs.adres ≠ s.regs.adres →
    adcEnabled s = true ∧ busy s = true ∧ busy t = false ∧
      t.regs.adres = Config.conversion s.draws (chsel s)

/-- R137: EN stays 1 once it is 1. -/
def Obligations.ConverterStaysEnabled : Prop :=
  ∀ (n : Nat) (s t : State), adcEnabled s = true → runSteps n s = .next t → adcEnabled t = true

/-- R23: no command writes a direction or output register whole or by field; RegSet and RegClr are the only
micro-operations that target one. -/
def Obligations.PortRegistersChangeBitByBit : Prop :=
  ∀ (c : Config) (i : Instr) (op : MicroOp) (g : Group), op ∈ opsOf c i →
    ∀ m v : Byte, op ≠ .regWr (.dir g) v ∧ op ≠ .regWr (.out g) v ∧
      op ≠ .regFld (.dir g) m v ∧ op ≠ .regFld (.out g) m v

/-! ## The read-modify-write primitives -/

/-- R100: SETBIT. -/
def Obligations.SetbitSetsOneBit : Prop :=
  (∀ (h : Handle) (b : BitIx),
    encode (.setbit h b) = 0x010000#24 ||| (h.num.setWidth 24 <<< 8) ||| BitVec.ofNat 24 b.val) ∧
  RefusedUnder 0x01#8 0x00E0F8#24 .badHandle (fun w => aLow5 w ∉ bitWritableNumbers) ∧
  (∀ (s : State) (r : Reg8) (b : BitIx), (Handle.reg r).num ∈ bitWritableNumbers →
    ∃ t, exec (.setbit (.reg r) b) s = .next t ∧ Completed t 0x0000#16 ∧
      t.reg r = s.reg r ||| (1#8 <<< b.val) ∧ t.bit r b = true ∧
      BitsKept s t [(r, b)] ∧ Frame s t [r] ∧ NoDraw s t)

/-- R101: CLRBIT. -/
def Obligations.ClrbitClearsOneBit : Prop :=
  (∀ (h : Handle) (b : BitIx),
    encode (.clrbit h b) = 0x020000#24 ||| (h.num.setWidth 24 <<< 8) ||| BitVec.ofNat 24 b.val) ∧
  RefusedUnder 0x02#8 0x00E0F8#24 .badHandle (fun w => aLow5 w ∉ bitWritableNumbers) ∧
  (∀ (s : State) (r : Reg8) (b : BitIx), (Handle.reg r).num ∈ bitWritableNumbers →
    ∃ t, exec (.clrbit (.reg r) b) s = .next t ∧ Completed t 0x0000#16 ∧
      t.reg r = s.reg r &&& ~~~(1#8 <<< b.val) ∧ t.bit r b = false ∧
      BitsKept s t [(r, b)] ∧ Frame s t [r] ∧ NoDraw s t)

/-- R102: TESTBIT responds with the bit of a stored register or with the pad's level, and changes no state the
spec names; that a read of a view takes one draw is the model's counter (log 5). BUSY reads 0 whenever the port is
ready, as R102 derives from R35(e) and R81. -/
def Obligations.TestbitReturnsOneBit : Prop :=
  (∀ (h : Handle) (b : BitIx),
    encode (.testbit h b) = 0x030000#24 ||| (h.num.setWidth 24 <<< 8) ||| BitVec.ofNat 24 b.val) ∧
  RefusedUnder 0x03#8 0x00E0F8#24 .badHandle (fun w => 0x17 ≤ (aLow5 w).toNat) ∧
  (∀ (s : State) (r : Reg8) (b : BitIx), ∃ t, exec (.testbit (.reg r) b) s = .next t ∧
    Completed t (if s.bit r b then 0x0001#16 else 0x0000#16) ∧ Frame s t [] ∧ NoDraw s t) ∧
  (∀ (s : State) (g : Group) (b : BitIx), ∃ t, exec (.testbit (.inp g) b) s = .next t ∧
    Completed t (if padLevel s g b then 0x0001#16 else 0x0000#16) ∧ Frame s t [] ∧
    t.draws = s.draws + 1 ∧ t.convLeft = s.convLeft) ∧
  (∀ s : State, Inv s → s.seq = .idle →
    ∃ t, exec (.testbit (.reg .adcsr) 6) s = .next t ∧ Completed t 0x0000#16)

/-- R103: RDREG responds with the whole register, zero-extended; for an input register each bit is the pad's
level; no state the spec names changes (a read of a view takes one draw, the model's counter, log 5). -/
def Obligations.RdregReturnsTheRegister : Prop :=
  (∀ h : Handle, encode (.rdreg h) = 0x040000#24 ||| (h.num.setWidth 24 <<< 8)) ∧
  RefusedUnder 0x04#8 0x00E0FF#24 .badHandle (fun w => 0x18 ≤ (aLow5 w).toNat) ∧
  (∀ (s : State) (r : Reg8), ∃ t, exec (.rdreg (.reg r)) s = .next t ∧
    Completed t ((s.reg r).setWidth 16) ∧ Frame s t [] ∧ NoDraw s t) ∧
  (∀ s : State, ∃ t, exec (.rdreg .adres) s = .next t ∧
    Completed t (s.regs.adres.setWidth 16) ∧ Frame s t [] ∧ NoDraw s t) ∧
  (∀ (s : State) (g : Group), ∃ t v, exec (.rdreg (.inp g)) s = .next t ∧
    Completed t v ∧ (∀ b : BitIx, v.getLsbD b.val = padLevel s g b) ∧ v.toNat < 256 ∧ Frame s t [] ∧
    t.draws = s.draws + 1 ∧ t.convLeft = s.convLeft)

/-- R104(b), (c): what TESTBIT reads after SETBIT and CLRBIT, and that SETBIT and CLRBIT on different bits
commute in the registers they leave. -/
def Obligations.PrimitiveLaws : Prop :=
  (∀ (s : State) (r : Reg8) (b : BitIx), (Handle.reg r).bitWritable = true →
    ∃ t u t' u', exec (.setbit (.reg r) b) s = .next t ∧ exec (.testbit (.reg r) b) t = .next u ∧
      Completed u 0x0001#16 ∧
      exec (.clrbit (.reg r) b) s = .next t' ∧ exec (.testbit (.reg r) b) t' = .next u' ∧
      Completed u' 0x0000#16) ∧
  (∀ (s : State) (r r' : Reg8) (b b' : BitIx), (Handle.reg r).bitWritable = true →
    (Handle.reg r').bitWritable = true → (r, b) ≠ (r', b') →
    ∃ t u t' u', exec (.setbit (.reg r) b) s = .next t ∧ exec (.clrbit (.reg r') b') t = .next u ∧
      exec (.clrbit (.reg r') b') s = .next t' ∧ exec (.setbit (.reg r) b) t' = .next u' ∧
      u.regs = u'.regs)

/-! ## The GPIO port unit -/

/-- R110: PINMODE. -/
def Obligations.PinmodeWritesOneDirectionBit : Prop :=
  (∀ (p : Pin) (v : Bool), encode (.pinmode p v) =
    0x100000#24 ||| (BitVec.ofNat 24 p.val <<< 8) ||| (if v then 1#24 else 0#24)) ∧
  RefusedUnder 0x10#8 0x00E0FE#24 .badPin (fun w => 20 ≤ (aLow5 w).toNat) ∧
  (∀ (s : State) (p : Pin) (v : Bool) (g : Group) (b : BitIx), pinAt s.cfg p = (g, b) →
    ∃ t, exec (.pinmode p v) s = .next t ∧ Completed t 0x0000#16 ∧ t.bit (.dir g) b = v ∧
      BitsKept s t [(.dir g, b)] ∧ Frame s t [.dir g] ∧ NoDraw s t)

/-- R111: DWRITE. -/
def Obligations.DwriteWritesOneOutputBit : Prop :=
  (∀ (p : Pin) (v : Bool), encode (.dwrite p v) =
    0x110000#24 ||| (BitVec.ofNat 24 p.val <<< 8) ||| (if v then 1#24 else 0#24)) ∧
  RefusedUnder 0x11#8 0x00E0FE#24 .badPin (fun w => 20 ≤ (aLow5 w).toNat) ∧
  (∀ (s : State) (p : Pin) (v : Bool) (g : Group) (b : BitIx), pinAt s.cfg p = (g, b) →
    ∃ t, exec (.dwrite p v) s = .next t ∧ Completed t 0x0000#16 ∧ t.bit (.out g) b = v ∧
      BitsKept s t [(.out g, b)] ∧ Frame s t [.out g] ∧ NoDraw s t)

/-- R112: DREAD responds 1 for a pad driven H, 0 for L, the environment's level otherwise, and changes no state
the spec names. That this level is Config.envLevel and that the read takes one draw is the model's choice
(log 5). -/
def Obligations.DreadReturnsThePadLevel : Prop :=
  (∀ p : Pin, encode (.dread p) = 0x120000#24 ||| (BitVec.ofNat 24 p.val <<< 8)) ∧
  RefusedUnder 0x12#8 0x00E0FF#24 .badPin (fun w => 20 ≤ (aLow5 w).toNat) ∧
  (∀ (s : State) (p : Pin) (g : Group) (b : BitIx), s.cfg.Ok → pinAt s.cfg p = (g, b) →
    ∃ t x, exec (.dread p) s = .next t ∧ Completed t (if x then 0x0001#16 else 0x0000#16) ∧
      (padDrive s p = .H → x = true) ∧ (padDrive s p = .L → x = false) ∧
      (padDrive s p ≠ .H → padDrive s p ≠ .L → x = Config.envLevel s.draws g b) ∧
      Frame s t [] ∧ t.draws = s.draws + 1 ∧ t.convLeft = s.convLeft)

/-- R113: no cross-pin interference. -/
def Obligations.NoCrossPinInterference : Prop :=
  ∀ (s : State) (x y : Pin) (v : Bool), s.cfg.Ok → x ≠ y →
    (∃ t, exec (.pinmode x v) s = .next t ∧ padDrive t y = padDrive s y) ∧
    (∃ t, exec (.dwrite x v) s = .next t ∧ padDrive t y = padDrive s y)

/-- R114: on a pin whose timer output is not connected, the level written is the level read. -/
def Obligations.WriteThenRead : Prop :=
  ∀ (s : State) (p : Pin) (v : Bool), s.cfg.Ok →
    (∀ ch, channelOf s.cfg p = some ch → connected s ch = false) →
    ∃ s1 s2 s3, exec (.pinmode p true) s = .next s1 ∧ exec (.dwrite p v) s1 = .next s2 ∧
      exec (.dread p) s2 = .next s3 ∧ Completed s3 (if v then 0x0001#16 else 0x0000#16)

/-! ## The PWM multiplexer and the duty registers -/

/-- R121: INITPWM writes the six mode-control registers and nothing else (R123). -/
def Obligations.InitpwmWritesModeRegisters : Prop :=
  encode .initpwm = 0x150000#24 ∧
  (∀ w : Word, opField w = 0x15#8 → w ≠ 0x150000#24 → decode w = .refused .reservedField) ∧
  (∀ s : State, ∃ t, exec .initpwm s = .next t ∧ Completed t 0x0000#16 ∧
    (∀ tm : Timer, t.reg (.mca tm) = s.cfg.pwmInitA ∧ t.reg (.mcb tm) = s.cfg.pwmInitB) ∧
    Frame s t [.mca 0, .mcb 0, .mca 1, .mcb 1, .mca 2, .mcb 2] ∧ NoDraw s t)

/-- R122: INITPWM twice leaves the state of INITPWM once. -/
def Obligations.InitpwmTwiceIsOnce : Prop :=
  ∀ s : State, ∃ t, exec .initpwm s = .next t ∧ exec .initpwm t = .next t

/-- R121 (effect on the pads), R195, R127: after INITPWM every pin with a channel whose direction bit is 1
drives PWM of its channel's duty, whenever that was written; a pin with direction 0 is Z; a pin without a
channel drives what it drove. -/
def Obligations.InitpwmTakesEveryChannelPin : Prop :=
  ∀ s : State, s.cfg.Ok → ∃ t, exec .initpwm s = .next t ∧
    ∀ p : Pin, (∀ ch, channelOf s.cfg p = some ch →
        padDrive t p = if s.bit (dirOf s.cfg p) (bitOf s.cfg p) then .PWM (s.reg (.duty ch)) else .Z) ∧
      (channelOf s.cfg p = none → padDrive t p = padDrive s p)

/-- R124, R125: PWMWR writes exactly the duty register of the pin's channel; without a channel it changes
nothing and responds normally. -/
def Obligations.PwmwrWritesOneDuty : Prop :=
  (∀ (p : Pin) (d : Byte), encode (.pwmwr p d) =
    0x130000#24 ||| (BitVec.ofNat 24 p.val <<< 8) ||| d.setWidth 24) ∧
  RefusedUnder 0x13#8 0x00E000#24 .badPin (fun w => 20 ≤ (aLow5 w).toNat) ∧
  (∀ (s : State) (p : Pin) (d : Byte) (ch : Channel), channelOf s.cfg p = some ch →
    ∃ t, exec (.pwmwr p d) s = .next t ∧ Completed t 0x0000#16 ∧ t.reg (.duty ch) = d ∧
      Frame s t [.duty ch] ∧ NoDraw s t) ∧
  (∀ (s : State) (p : Pin) (d : Byte), channelOf s.cfg p = none →
    ∃ t, exec (.pwmwr p d) s = .next t ∧ Completed t 0x0000#16 ∧ Frame s t [] ∧ NoDraw s t)

/-- R126: clearing a channel's connection bit returns its pin to its output-register bit, leaves the timer's
other channel, mode and clock as they were, and no duty written reconnects it. -/
def Obligations.DisconnectReturnsThePin : Prop :=
  ∀ (s : State) (p : Pin) (ch : Channel), s.cfg.Ok → channelOf s.cfg p = some ch →
    s.bit (dirOf s.cfg p) (bitOf s.cfg p) = true →
    ∃ t, exec (.clrbit (.reg (.mca (timerOf ch))) (coBit ch)) s = .next t ∧
      padDrive t p = (if s.bit (outOf s.cfg p) (bitOf s.cfg p) then .H else .L) ∧
      (∀ ch' : Channel, ch' ≠ ch → connected t ch' = connected s ch') ∧
      (∀ tm : Timer, pwmActive t tm = pwmActive s tm) ∧
      (∀ (q : Pin) (d : Byte), ∃ u, exec (.pwmwr q d) t = .next u ∧ connected u ch = false)

/-! ## The converter -/

/-- R136: INITADC. -/
def Obligations.InitadcWritesTheFields : Prop :=
  encode .initadc = 0x160000#24 ∧
  (∀ w : Word, opField w = 0x16#8 → w ≠ 0x160000#24 → decode w = .refused .reservedField) ∧
  (∀ s : State, ∃ t, exec .initadc s = .next t ∧ Completed t 0x0000#16 ∧
    refcfg t = s.cfg.adcRefInit ∧ chsel t = chsel s ∧ adcEnabled t = true ∧ adcDiv t = s.cfg.adcDivInit ∧
    (∀ b : BitIx, 3 ≤ b.val → b.val ≤ 6 → t.bit .adcsr b = s.bit .adcsr b) ∧
    Frame s t [.adsel, .adcsr] ∧ NoDraw s t)

/-- R138 (steps 0 and 1), R143: AREAD selects its channel by the low four bits only and triggers; it then waits
at its step 2, the port held, with the rest of the state as it was. -/
def Obligations.AreadSelectsAndTriggers : Prop :=
  (∀ k : AnaChannel, encode (.aread k) = 0x140000#24 ||| (BitVec.ofNat 24 k.val <<< 8)) ∧
  RefusedUnder 0x14#8 0x00F0FF#24 .badChannel (fun w => 6 ≤ (aLow4 w).toNat) ∧
  (∀ (s : State) (k : AnaChannel), ∃ t, exec (.aread k) s = .next t ∧
    chsel t = BitVec.ofNat 4 k.val ∧ refcfg t = refcfg s ∧ busy t = true ∧
    BitsKept s t [(.adsel, 0), (.adsel, 1), (.adsel, 2), (.adsel, 3), (.adcsr, 6)] ∧
    t.seq = .running (.aread k) 2 ∧ cmdReady t = false ∧ t.rsp = none ∧ Frame s t [.adsel, .adcsr])

/-- R139: the wait. While ADCSR[6] = 1 and the converter does not act, the step at index 2 changes nothing but
how near the converter is (log 7); once ADCSR[6] = 0 it advances, and step 3 responds with ADRES. -/
def Obligations.AreadPollsBusy : Prop :=
  (∀ (s : State) (k : AnaChannel), s.seq = .running (.aread k) 2 → busy s = true →
    s.convLeft ≠ some 0 → ∃ t, step s = .next t ∧ t.regs = s.regs ∧ t.seq = s.seq ∧ t.rsp = none ∧
      t.draws = s.draws ∧ Frame s t []) ∧
  (∀ (s : State) (k : AnaChannel), s.seq = .running (.aread k) 2 → busy s = false →
    step s = .next { s with seq := .running (.aread k) 3, rsp := none }) ∧
  (∀ (s : State) (k : AnaChannel), s.seq = .running (.aread k) 3 → busy s = false →
    step s = .next { s with seq := .idle, rsp := some ⟨false, s.regs.adres.setWidth 16⟩ })

/-- R140: the converter's step, taken when its turn has come (log 7): ADRES takes the drawn value and BUSY
falls, in one step, and nothing else the spec names changes. In the model's own terms no response is presented
(log 4), one draw is taken (log 6) and the converter has no turn left (log 7). -/
def Obligations.AdcCompleteIsOneStep : Prop :=
  ∀ (s : State) (i : Instr) (k : Nat), s.seq = .running i k → adcEnabled s = true → busy s = true →
    s.convLeft = some 0 →
    ∃ t, step s = .next t ∧ t.regs.adres = Config.conversion s.draws (chsel s) ∧
      BitsKept s t [(.adcsr, 6)] ∧ busy t = false ∧ t.seq = s.seq ∧ t.cfg = s.cfg ∧ t.fault = s.fault ∧
      t.fcause = s.fcause ∧ t.fword = s.fword ∧ t.host = s.host ∧ t.grain = s.grain ∧ t.rsp = none ∧
      t.draws = s.draws + 1 ∧ t.convLeft = none

/-- R138, R140, R141, R143: with the converter enabled and its turn n away (the model's count, log 7), a waiting
AREAD responds after n + 3 steps with the value converted; every register but ADRES and BUSY, the configuration,
the latch and the host's words are as they were. -/
def Obligations.AreadCompletes : Prop :=
  ∀ (n : Nat) (s : State) (k : AnaChannel), s.seq = .running (.aread k) 2 → adcEnabled s = true →
    busy s = true → s.convLeft = some n →
    ∃ t, runSteps (n + 3) s = .next t ∧ t.regs.adres = Config.conversion s.draws (chsel s) ∧
      Completed t (t.regs.adres.setWidth 16) ∧ BitsKept s t [(.adcsr, 6)] ∧ busy t = false ∧
      t.cfg = s.cfg ∧ t.fault = s.fault ∧ t.fcause = s.fcause ∧ t.fword = s.fword ∧ t.host = s.host

/-- R138, R143: a whole AREAD. With the converter enabled and no conversion in flight, the command waits at its
step 2, and whenever the converter's turn comes (n turns away, for every n; log 7) it responds with the value
converted from its channel; against the state before it only ADSEL[3:0] and ADRES differ. -/
def Obligations.AreadReturnsAndLeavesTheRest : Prop :=
  ∀ (n : Nat) (s : State) (k : AnaChannel), adcEnabled s = true → busy s = false →
    ∃ t u, exec (.aread k) s = .next t ∧ t.seq = .running (.aread k) 2 ∧
      runSteps (n + 3) { t with convLeft := some n } = .next u ∧
      u.regs.adres = Config.conversion t.draws (BitVec.ofNat 4 k.val) ∧
      Completed u (u.regs.adres.setWidth 16) ∧
      chsel u = BitVec.ofNat 4 k.val ∧ refcfg u = refcfg s ∧ (∀ r, r ≠ .adsel → u.reg r = s.reg r) ∧
      u.cfg = s.cfg ∧ u.fault = s.fault ∧ u.fcause = s.fcause ∧ u.fword = s.fword ∧ u.host = s.host

/-- R142: AREAD with the converter not enabled runs steps 0 and 1 and then waits for ever, with no response and
the port not ready. That exec answers the state at the wait, and that the hang is a run of equal states, is the
model's choice (log 9). -/
def Obligations.AreadBeforeInitadcIsStuck : Prop :=
  ∀ (s : State) (k : AnaChannel), adcEnabled s = false →
    ∃ t, exec (.aread k) s = .next t ∧ chsel t = BitVec.ofNat 4 k.val ∧ busy t = true ∧
      ∀ n, runSteps n t = .next t ∧ cmdReady t = false ∧ t.rsp = none

/-- R141: a conversion that never completes holds the port for ever: from a waiting AREAD whose converter never
acts, every run comes back to the same state, with no response. -/
def Obligations.NeverCompletingConversionHangs : Prop :=
  ∀ (n : Nat) (s : State) (k : AnaChannel), s.seq = .running (.aread k) 2 → busy s = true →
    s.convLeft = none → s.rsp = none → runSteps n s = .next s ∧ cmdReady s = false

/-! ## The motor commands -/

/-- R150, R158: the encoder: three branches, the duty the magnitude, in bits the low byte or its negation; the
output (0, 0, d) is never produced. -/
def Obligations.EncoderTable : Prop :=
  ∀ v : Int, speedOk v = true →
    (v > 0 → (enc v).dir1 = true ∧ (enc v).dir2 = false ∧ ((enc v).duty.toNat : Int) = v ∧
      (enc v).duty = (speedBits v).extractLsb' 0 8) ∧
    (v < 0 → (enc v).dir1 = false ∧ (enc v).dir2 = true ∧ ((enc v).duty.toNat : Int) = -v ∧
      (enc v).duty = ~~~((speedBits v).extractLsb' 0 8) + 1#8) ∧
    (v = 0 → enc v = ⟨true, true, 0x00#8⟩) ∧
    ((enc v).dir1 = true ∨ (enc v).dir2 = true)

/-- R153: SETMOTOR sets the two output bits and the duty register of its motor by Enc, and changes nothing
else. -/
def Obligations.SetmotorDrivesItsMotor : Prop :=
  (∀ (m : Motor) (v : Int), encode (.setmotor m v) =
    0x210000#24 ||| (if m = .B then 1#24 <<< 15 else 0#24) ||| (BitVec.ofInt 9 v).setWidth 24) ∧
  RefusedUnder 0x21#8 0x007E00#24 .badSpeed (fun w => speedField w = 0x100#9) ∧
  (∀ (s : State) (m : Motor) (v : Int) (ch : Channel), s.cfg.Ok → speedOk v = true →
    channelOf s.cfg (motorPins s.cfg m).pwm = some ch →
    ∃ t, exec (.setmotor m v) s = .next t ∧ Completed t 0x0000#16 ∧
      t.bit (outOf s.cfg (motorPins s.cfg m).d1) (bitOf s.cfg (motorPins s.cfg m).d1) = (enc v).dir1 ∧
      t.bit (outOf s.cfg (motorPins s.cfg m).d2) (bitOf s.cfg (motorPins s.cfg m).d2) = (enc v).dir2 ∧
      t.reg (.duty ch) = (enc v).duty ∧
      (∀ r b, (r, b) ≠ (outOf s.cfg (motorPins s.cfg m).d1, bitOf s.cfg (motorPins s.cfg m).d1) →
        (r, b) ≠ (outOf s.cfg (motorPins s.cfg m).d2, bitOf s.cfg (motorPins s.cfg m).d2) →
        r ≠ .duty ch → t.bit r b = s.bit r b) ∧
      Frame s t [outOf s.cfg (motorPins s.cfg m).d1, outOf s.cfg (motorPins s.cfg m).d2, .duty ch] ∧
      NoDraw s t)

/-- R154, R155: DRIVEA s and DRIVEB s are the micro-operations of SETMOTOR A, s and SETMOTOR B, s and leave
exactly the state they leave. -/
def Obligations.DriveDelegatesToSetmotor : Prop :=
  (∀ v : Int, encode (.drivea v) = 0x220000#24 ||| (BitVec.ofInt 9 v).setWidth 24 ∧
    encode (.driveb v) = 0x230000#24 ||| (BitVec.ofInt 9 v).setWidth 24) ∧
  RefusedUnder 0x22#8 0x00FE00#24 .badSpeed (fun w => speedField w = 0x100#9) ∧
  RefusedUnder 0x23#8 0x00FE00#24 .badSpeed (fun w => speedField w = 0x100#9) ∧
  (∀ (s : State) (v : Int), speedOk v = true →
    ∃ t u, exec (.drivea v) s = .next t ∧ exec (.setmotor .A v) s = .next t ∧
      exec (.driveb v) s = .next u ∧ exec (.setmotor .B v) s = .next u ∧
      opsOf s.cfg (.drivea v) = opsOf s.cfg (.setmotor .A v) ∧
      opsOf s.cfg (.driveb v) = opsOf s.cfg (.setmotor .B v))

/-- R156: STOPALL leaves both pairs of direction bits 1 and both duties 0, and changes nothing else; in
particular not the enable pin's output bit. -/
def Obligations.StopallBrakesBothMotors : Prop :=
  encode .stopall = 0x240000#24 ∧
  (∀ w : Word, opField w = 0x24#8 → w ≠ 0x240000#24 → decode w = .refused .reservedField) ∧
  (∀ (s : State) (ca cb : Channel), s.cfg.Ok → channelOf s.cfg s.cfg.motorA.pwm = some ca →
    channelOf s.cfg s.cfg.motorB.pwm = some cb →
    ∃ t, exec .stopall s = .next t ∧ Completed t 0x0000#16 ∧
      (∀ p ∈ [s.cfg.motorA.d1, s.cfg.motorA.d2, s.cfg.motorB.d1, s.cfg.motorB.d2],
        t.bit (outOf s.cfg p) (bitOf s.cfg p) = true) ∧
      t.reg (.duty ca) = 0x00#8 ∧ t.reg (.duty cb) = 0x00#8 ∧
      (∀ r b, (∀ p ∈ [s.cfg.motorA.d1, s.cfg.motorA.d2, s.cfg.motorB.d1, s.cfg.motorB.d2],
          (r, b) ≠ (outOf s.cfg p, bitOf s.cfg p)) → r ≠ .duty ca → r ≠ .duty cb → t.bit r b = s.bit r b) ∧
      t.regs.adres = s.regs.adres ∧ t.cfg = s.cfg ∧ t.fault = s.fault ∧ t.fcause = s.fcause ∧
      t.fword = s.fword ∧ t.host = s.host ∧ t.grain = s.grain ∧ NoDraw s t)

/-- R152: SETUPM makes the seven motor pins outputs, initialises the timers, disconnects the enable pin's channel
and sets its output bit, and changes nothing else; the enable pin is then H. -/
def Obligations.SetupmPreparesTheMotors : Prop :=
  encode .setupm = 0x200000#24 ∧
  (∀ w : Word, opField w = 0x20#8 → w ≠ 0x200000#24 → decode w = .refused .reservedField) ∧
  (∀ s : State, s.cfg.Ok →
    ∃ t, exec .setupm s = .next t ∧ Completed t 0x0000#16 ∧
      (∀ p ∈ s.cfg.motorDriverPins, t.bit (dirOf s.cfg p) (bitOf s.cfg p) = true) ∧
      (∀ g b, (∀ p ∈ s.cfg.motorDriverPins, pinAt s.cfg p ≠ (g, b)) → t.bit (.dir g) b = s.bit (.dir g) b) ∧
      (∀ tm : Timer, t.reg (.mcb tm) = s.cfg.pwmInitB) ∧
      (∀ (tm : Timer) (b : BitIx),
        (∃ ch, channelOf s.cfg s.cfg.pinEn = some ch ∧ timerOf ch = tm ∧ coBit ch = b) → t.bit (.mca tm) b = false) ∧
      (∀ (tm : Timer) (b : BitIx),
        (∀ ch, channelOf s.cfg s.cfg.pinEn = some ch → ¬ (timerOf ch = tm ∧ coBit ch = b)) →
        t.bit (.mca tm) b = s.cfg.pwmInitA.getLsbD b.val) ∧
      t.bit (outOf s.cfg s.cfg.pinEn) (bitOf s.cfg s.cfg.pinEn) = true ∧
      (∀ g b, pinAt s.cfg s.cfg.pinEn ≠ (g, b) → t.bit (.out g) b = s.bit (.out g) b) ∧
      (∀ ch : Channel, t.reg (.duty ch) = s.reg (.duty ch)) ∧
      t.reg .adsel = s.reg .adsel ∧ t.reg .adcsr = s.reg .adcsr ∧
      t.regs.adres = s.regs.adres ∧ t.cfg = s.cfg ∧ t.fault = s.fault ∧ t.fcause = s.fcause ∧
      t.fword = s.fword ∧ t.host = s.host ∧ t.grain = s.grain ∧ NoDraw s t ∧
      padDrive t s.cfg.pinEn = .H)

/-- R156 (the source's fifth property, V5): SETUPM then STOPALL leaves the enable pin H, both duties 0, and every
direction pin that has no PWM channel H (a direction pin that has one is its timer's; log 21). -/
def Obligations.SetupThenStopLeavesMotorsBraked : Prop :=
  ∀ (s : State), s.cfg.Ok →
    ∃ t u, exec .setupm s = .next t ∧ exec .stopall t = .next u ∧ padDrive u s.cfg.pinEn = .H ∧
      (∀ p ∈ [s.cfg.motorA.d1, s.cfg.motorA.d2, s.cfg.motorB.d1, s.cfg.motorB.d2],
        channelOf s.cfg p = none → padDrive u p = .H) ∧
      (∀ p ∈ [s.cfg.motorA.pwm, s.cfg.motorB.pwm], padDrive u p = .PWM 0x00#8)

/-- R157: the two output bits and the duty register that SETMOTOR writes depend only on the motor and the speed,
twice is once, and the other motor's bits and duty are left alone. -/
def Obligations.SetmotorIsStateless : Prop :=
  (∀ (s s' : State) (m : Motor) (v : Int) (ch : Channel), s.cfg.Ok → s'.cfg = s.cfg → speedOk v = true →
    channelOf s.cfg (motorPins s.cfg m).pwm = some ch →
    ∃ t t', exec (.setmotor m v) s = .next t ∧ exec (.setmotor m v) s' = .next t' ∧
      (∀ p ∈ [(motorPins s.cfg m).d1, (motorPins s.cfg m).d2],
        t.bit (outOf s.cfg p) (bitOf s.cfg p) = t'.bit (outOf s.cfg p) (bitOf s.cfg p)) ∧
      t.reg (.duty ch) = t'.reg (.duty ch) ∧ exec (.setmotor m v) t = .next t) ∧
  (∀ (s : State) (m m' : Motor) (v : Int) (ch : Channel), s.cfg.Ok → speedOk v = true → m ≠ m' →
    channelOf s.cfg (motorPins s.cfg m').pwm = some ch →
    ∃ t, exec (.setmotor m v) s = .next t ∧ t.reg (.duty ch) = s.reg (.duty ch) ∧
      (∀ p ∈ [(motorPins s.cfg m').d1, (motorPins s.cfg m').d2],
        t.bit (outOf s.cfg p) (bitOf s.cfg p) = s.bit (outOf s.cfg p) (bitOf s.cfg p)))

/-- R198: an INITPWM after SETUPM reconnects the enable pin's channel, and the pin drives PWM of that channel's
duty instead of H; clearing the connection bit again gives H back. -/
def Obligations.SecondInitpwmTakesTheEnablePin : Prop :=
  ∀ (s : State) (ch : Channel), s.cfg.Ok → channelOf s.cfg s.cfg.pinEn = some ch →
    ∃ t u v, exec .setupm s = .next t ∧ exec .initpwm t = .next u ∧
      padDrive t s.cfg.pinEn = .H ∧ padDrive u s.cfg.pinEn = .PWM (s.reg (.duty ch)) ∧
      exec (.clrbit (.reg (.mca (timerOf ch))) (coBit ch)) u = .next v ∧ padDrive v s.cfg.pinEn = .H

/-- R203, R153 corner case (c): from forward to reverse a motor passes through both direction bits low, and
from reverse to forward through both high, after the first micro-operation. -/
def Obligations.DirectionChangePassesThroughBothEqual : Prop :=
  ∀ (s : State) (m : Motor) (v : Int), s.cfg.Ok → speedOk v = true → busy s = false → v ≠ 0 →
    s.seq = .running (.setmotor m v) 0 →
    s.bit (outOf s.cfg (motorPins s.cfg m).d1) (bitOf s.cfg (motorPins s.cfg m).d1) = decide (v < 0) →
    s.bit (outOf s.cfg (motorPins s.cfg m).d2) (bitOf s.cfg (motorPins s.cfg m).d2) = decide (v > 0) →
    ∃ t, step s = .next t ∧ t.seq = .running (.setmotor m v) 1 ∧
      t.bit (outOf s.cfg (motorPins s.cfg m).d1) (bitOf s.cfg (motorPins s.cfg m).d1) = decide (v > 0) ∧
      t.bit (outOf s.cfg (motorPins s.cfg m).d2) (bitOf s.cfg (motorPins s.cfg m).d2) = decide (v > 0)

/-- R199: the enable pin in a SETUPM run micro-operation by micro-operation, t the timer of its channel. Between
the writes of MCAt (index 7 + 2t) and MCBt it is X if the timer's clock was stopped, else PWM of its channel's
duty; from then up to index 13 it is PWM of that duty; after index 13 it is its output bit; after index 14
it is H. -/
def Obligations.EnablePinWindowOfSetupm : Prop :=
  ∀ (s : State) (ch : Channel), s.cfg.Ok → busy s = false → channelOf s.cfg s.cfg.pinEn = some ch →
    (∃ t, runSteps (8 + 2 * (timerOf ch).val) { s with seq := .running .setupm 0, rsp := none } = .next t ∧
      padDrive t s.cfg.pinEn =
        if clockSelect s (timerOf ch) = 0#3 then .X else .PWM (s.reg (.duty ch))) ∧
    (∀ k, 9 + 2 * (timerOf ch).val ≤ k → k ≤ 13 →
      ∃ t, runSteps k { s with seq := .running .setupm 0, rsp := none } = .next t ∧
        padDrive t s.cfg.pinEn = .PWM (s.reg (.duty ch))) ∧
    (∃ t, runSteps 14 { s with seq := .running .setupm 0, rsp := none } = .next t ∧
      padDrive t s.cfg.pinEn =
        if s.bit (outOf s.cfg s.cfg.pinEn) (bitOf s.cfg s.cfg.pinEn) then .H else .L) ∧
    (∃ t, runSteps 15 { s with seq := .running .setupm 0, rsp := none } = .next t ∧ padDrive t s.cfg.pinEn = .H)
end

