-- ==== Sys2Proof/Laws/State.lean ====
section
/-! SUPPORT. One lemma per field per update, for the updates of State that the shared operations make. -/

namespace Sys2Proof.Machine

section setReg
variable (s : State) (r : Reg8) (v : Byte)
@[simp] theorem State.setReg_regs : (s.setReg r v).regs = s.regs.set r v := rfl
@[simp] theorem State.setReg_cfg : (s.setReg r v).cfg = s.cfg := rfl
@[simp] theorem State.setReg_fault : (s.setReg r v).fault = s.fault := rfl
@[simp] theorem State.setReg_fcause : (s.setReg r v).fcause = s.fcause := rfl
@[simp] theorem State.setReg_fword : (s.setReg r v).fword = s.fword := rfl
@[simp] theorem State.setReg_seq : (s.setReg r v).seq = s.seq := rfl
@[simp] theorem State.setReg_host : (s.setReg r v).host = s.host := rfl
@[simp] theorem State.setReg_rsp : (s.setReg r v).rsp = s.rsp := rfl
@[simp] theorem State.setReg_draws : (s.setReg r v).draws = s.draws := rfl
@[simp] theorem State.setReg_convLeft : (s.setReg r v).convLeft = s.convLeft := rfl
@[simp] theorem State.setReg_grain : (s.setReg r v).grain = s.grain := rfl
end setReg

section respond
variable (v : Data) (s : State)
@[simp] theorem respond_regs : (respond v s).regs = s.regs := rfl
@[simp] theorem respond_cfg : (respond v s).cfg = s.cfg := rfl
@[simp] theorem respond_fault : (respond v s).fault = s.fault := rfl
@[simp] theorem respond_fcause : (respond v s).fcause = s.fcause := rfl
@[simp] theorem respond_fword : (respond v s).fword = s.fword := rfl
@[simp] theorem respond_seq : (respond v s).seq = .idle := rfl
@[simp] theorem respond_host : (respond v s).host = s.host := rfl
@[simp] theorem respond_rsp : (respond v s).rsp = some ⟨false, v⟩ := rfl
@[simp] theorem respond_draws : (respond v s).draws = s.draws := rfl
@[simp] theorem respond_convLeft : (respond v s).convLeft = s.convLeft := rfl
@[simp] theorem respond_grain : (respond v s).grain = s.grain := rfl
@[simp] theorem respond_reg (r : Reg8) : (respond v s).reg r = s.reg r := rfl
@[simp] theorem respond_bit (r : Reg8) (b : BitIx) : (respond v s).bit r b = s.bit r b := rfl
end respond

section refuse
variable (s : State)
@[simp] theorem refuse_regs : (refuse s).regs = s.regs := rfl
@[simp] theorem refuse_cfg : (refuse s).cfg = s.cfg := rfl
@[simp] theorem refuse_fault : (refuse s).fault = s.fault := rfl
@[simp] theorem refuse_fcause : (refuse s).fcause = s.fcause := rfl
@[simp] theorem refuse_fword : (refuse s).fword = s.fword := rfl
@[simp] theorem refuse_seq : (refuse s).seq = .idle := rfl
@[simp] theorem refuse_host : (refuse s).host = s.host := rfl
@[simp] theorem refuse_rsp : (refuse s).rsp = some ⟨true, 0#16⟩ := rfl
@[simp] theorem refuse_draws : (refuse s).draws = s.draws := rfl
@[simp] theorem refuse_convLeft : (refuse s).convLeft = s.convLeft := rfl
@[simp] theorem refuse_grain : (refuse s).grain = s.grain := rfl
@[simp] theorem refuse_reg (r : Reg8) : (refuse s).reg r = s.reg r := rfl
end refuse

section atIndex
variable (i : Instr) (k : Nat) (s : State)
@[simp] theorem atIndex_regs : (atIndex i k s).regs = s.regs := rfl
@[simp] theorem atIndex_cfg : (atIndex i k s).cfg = s.cfg := rfl
@[simp] theorem atIndex_fault : (atIndex i k s).fault = s.fault := rfl
@[simp] theorem atIndex_fcause : (atIndex i k s).fcause = s.fcause := rfl
@[simp] theorem atIndex_fword : (atIndex i k s).fword = s.fword := rfl
@[simp] theorem atIndex_seq : (atIndex i k s).seq = .running i k := rfl
@[simp] theorem atIndex_host : (atIndex i k s).host = s.host := rfl
@[simp] theorem atIndex_rsp : (atIndex i k s).rsp = none := rfl
@[simp] theorem atIndex_draws : (atIndex i k s).draws = s.draws := rfl
@[simp] theorem atIndex_convLeft : (atIndex i k s).convLeft = s.convLeft := rfl
@[simp] theorem atIndex_grain : (atIndex i k s).grain = s.grain := rfl
@[simp] theorem atIndex_reg (r : Reg8) : (atIndex i k s).reg r = s.reg r := rfl
@[simp] theorem atIndex_bit (r : Reg8) (b : BitIx) : (atIndex i k s).bit r b = s.bit r b := rfl
end atIndex

section afterRead
variable (s : State) (h : Handle)
@[simp] theorem afterRead_regs : (afterRead s h).regs = s.regs := by cases h <;> rfl
@[simp] theorem afterRead_cfg : (afterRead s h).cfg = s.cfg := by cases h <;> rfl
@[simp] theorem afterRead_fault : (afterRead s h).fault = s.fault := by cases h <;> rfl
@[simp] theorem afterRead_fcause : (afterRead s h).fcause = s.fcause := by cases h <;> rfl
@[simp] theorem afterRead_fword : (afterRead s h).fword = s.fword := by cases h <;> rfl
@[simp] theorem afterRead_seq : (afterRead s h).seq = s.seq := by cases h <;> rfl
@[simp] theorem afterRead_host : (afterRead s h).host = s.host := by cases h <;> rfl
@[simp] theorem afterRead_rsp : (afterRead s h).rsp = s.rsp := by cases h <;> rfl
@[simp] theorem afterRead_convLeft : (afterRead s h).convLeft = s.convLeft := by cases h <;> rfl
@[simp] theorem afterRead_grain : (afterRead s h).grain = s.grain := by cases h <;> rfl
@[simp] theorem afterRead_reg (r : Reg8) : (afterRead s h).reg r = s.reg r := by cases h <;> rfl
end afterRead

section startConversion
variable (s : State)
@[simp] theorem startConversion_regs :
    (startConversion s).regs = s.regs.set .adcsr (bitSet (s.reg .adcsr) 6) := rfl
@[simp] theorem startConversion_cfg : (startConversion s).cfg = s.cfg := rfl
@[simp] theorem startConversion_fault : (startConversion s).fault = s.fault := rfl
@[simp] theorem startConversion_fcause : (startConversion s).fcause = s.fcause := rfl
@[simp] theorem startConversion_fword : (startConversion s).fword = s.fword := rfl
@[simp] theorem startConversion_seq : (startConversion s).seq = s.seq := rfl
@[simp] theorem startConversion_host : (startConversion s).host = s.host := rfl
@[simp] theorem startConversion_rsp : (startConversion s).rsp = s.rsp := rfl
@[simp] theorem startConversion_draws : (startConversion s).draws = s.draws + 1 := rfl
@[simp] theorem startConversion_convLeft :
    (startConversion s).convLeft = Config.conversionTime s.draws := rfl
@[simp] theorem startConversion_grain : (startConversion s).grain = s.grain := rfl
end startConversion

section adcComplete
variable (s : State)
@[simp] theorem adcComplete_adres :
    (adcComplete s).regs.adres = Config.conversion s.draws (chsel s) := rfl
@[simp] theorem adcComplete_cfg : (adcComplete s).cfg = s.cfg := rfl
@[simp] theorem adcComplete_fault : (adcComplete s).fault = s.fault := rfl
@[simp] theorem adcComplete_fcause : (adcComplete s).fcause = s.fcause := rfl
@[simp] theorem adcComplete_fword : (adcComplete s).fword = s.fword := rfl
@[simp] theorem adcComplete_seq : (adcComplete s).seq = s.seq := rfl
@[simp] theorem adcComplete_host : (adcComplete s).host = s.host := rfl
@[simp] theorem adcComplete_rsp : (adcComplete s).rsp = none := rfl
@[simp] theorem adcComplete_draws : (adcComplete s).draws = s.draws + 1 := rfl
@[simp] theorem adcComplete_convLeft : (adcComplete s).convLeft = none := rfl
@[simp] theorem adcComplete_grain : (adcComplete s).grain = s.grain := rfl
end adcComplete

section fields
variable (v : Data) (i : Instr) (k : Nat) (s : State)
@[simp] theorem busy_respond : busy (respond v s) = busy s := rfl
@[simp] theorem busy_atIndex : busy (atIndex i k s) = busy s := rfl
@[simp] theorem busy_refuse : busy (refuse s) = busy s := rfl
@[simp] theorem adcEnabled_respond : adcEnabled (respond v s) = adcEnabled s := rfl
@[simp] theorem adcEnabled_atIndex : adcEnabled (atIndex i k s) = adcEnabled s := rfl
@[simp] theorem adcEnabled_refuse : adcEnabled (refuse s) = adcEnabled s := rfl
@[simp] theorem adcDiv_respond : adcDiv (respond v s) = adcDiv s := rfl
@[simp] theorem adcDiv_atIndex : adcDiv (atIndex i k s) = adcDiv s := rfl
@[simp] theorem adcDiv_refuse : adcDiv (refuse s) = adcDiv s := rfl
@[simp] theorem chsel_respond : chsel (respond v s) = chsel s := rfl
@[simp] theorem chsel_atIndex : chsel (atIndex i k s) = chsel s := rfl
@[simp] theorem chsel_refuse : chsel (refuse s) = chsel s := rfl
@[simp] theorem refcfg_respond : refcfg (respond v s) = refcfg s := rfl
@[simp] theorem refcfg_atIndex : refcfg (atIndex i k s) = refcfg s := rfl
@[simp] theorem refcfg_refuse : refcfg (refuse s) = refcfg s := rfl
end fields

section pads
variable (v : Data) (i : Instr) (k : Nat) (s : State) (p : Pin)
@[simp] theorem padDrive_respond : padDrive (respond v s) p = padDrive s p := rfl
@[simp] theorem padDrive_atIndex : padDrive (atIndex i k s) p = padDrive s p := rfl
@[simp] theorem padDrive_refuse : padDrive (refuse s) p = padDrive s p := rfl
end pads

end Sys2Proof.Machine
end

