-- ==== Sys2Proof/Laws/Regs.lean ====
section
/-! SUPPORT. Reading after writing a register, and one bit of what a micro-operation writes (R10, R11, R75). -/

namespace Sys2Proof.Machine

/-! ### Bits of the 8-bit arithmetic -/

theorem mask_getLsbD (b c : BitIx) : (mask b).getLsbD c.val = decide (c = b) := by
  revert b c; decide

theorem bitSet_getLsbD (v : Byte) (b c : BitIx) :
    (bitSet v b).getLsbD c.val = (decide (c = b) || v.getLsbD c.val) := by
  rw [bitSet, BitVec.getLsbD_or, mask_getLsbD, Bool.or_comm]

theorem bitClr_getLsbD (v : Byte) (b c : BitIx) :
    (bitClr v b).getLsbD c.val = (!decide (c = b) && v.getLsbD c.val) := by
  rw [bitClr, BitVec.getLsbD_and, BitVec.getLsbD_not, mask_getLsbD, Bool.and_comm,
    decide_eq_true c.isLt, Bool.true_and]

theorem fieldWrite_getLsbD (old m v : Byte) (i : Nat) :
    (fieldWrite old m v).getLsbD i = if m.getLsbD i then v.getLsbD i else old.getLsbD i := by
  rw [fieldWrite, BitVec.getLsbD_or, BitVec.getLsbD_and, BitVec.getLsbD_and, BitVec.getLsbD_not]
  by_cases hi : i < 8
  · cases m.getLsbD i <;> simp only [hi] <;> simp
  · rw [BitVec.getLsbD_of_ge m i (by omega), BitVec.getLsbD_of_ge old i (by omega)]
    simp

theorem byte_ext (x y : Byte) (h : ∀ b : BitIx, x.getLsbD b.val = y.getLsbD b.val) : x = y := by
  apply BitVec.eq_of_getLsbD_eq
  intro i hi
  exact h ⟨i, hi⟩

/-! ### The register file -/

@[simp] theorem Group.num_inj {g h : Group} : g.num = h.num ↔ g = h := by
  cases g <;> cases h <;> decide

theorem Regs.get_set (f : Regs) (r r' : Reg8) (v : Byte) :
    (f.set r v).get r' = if r' = r then v else f.get r' := by
  cases r <;> cases r' <;>
    simp only [Regs.set, Regs.get, Fin.getElem_fin, Vector.getElem_set, ← Fin.ext_iff, Group.num_inj,
      Reg8.dir.injEq, Reg8.out.injEq, Reg8.mca.injEq, Reg8.mcb.injEq, Reg8.duty.injEq, eq_comm, reduceCtorEq,
      if_true, if_false]

@[simp] theorem Regs.get_set_self (f : Regs) (r : Reg8) (v : Byte) : (f.set r v).get r = v := by
  simp [Regs.get_set]

@[simp] theorem Regs.set_adres (f : Regs) (r : Reg8) (v : Byte) : (f.set r v).adres = f.adres := by
  cases r <;> rfl

/-- Two register files with equal registers are equal. -/
theorem Regs.ext_get (f f' : Regs) (h : ∀ r, f.get r = f'.get r) (ha : f.adres = f'.adres) : f = f' := by
  obtain ⟨dir, out, mca, mcb, duty, adsel, adcsr, adres⟩ := f
  obtain ⟨dir', out', mca', mcb', duty', adsel', adcsr', adres'⟩ := f'
  have hg : ∀ i : Fin 3, ∃ g : Group, g.num = i := fun i =>
    match i with
    | 0 => ⟨.B, rfl⟩
    | 1 => ⟨.C, rfl⟩
    | 2 => ⟨.D, rfl⟩
  have h1 : dir = dir' := Vector.ext fun i hi => by
    obtain ⟨g, hg⟩ := hg ⟨i, hi⟩
    simpa [Regs.get, hg] using h (.dir g)
  have h2 : out = out' := Vector.ext fun i hi => by
    obtain ⟨g, hg⟩ := hg ⟨i, hi⟩
    simpa [Regs.get, hg] using h (.out g)
  have h3 : mca = mca' := Vector.ext fun i hi => h (.mca ⟨i, hi⟩)
  have h4 : mcb = mcb' := Vector.ext fun i hi => h (.mcb ⟨i, hi⟩)
  have h5 : duty = duty' := Vector.ext fun i hi => h (.duty ⟨i, hi⟩)
  have h6 : adsel = adsel' := h .adsel
  have h7 : adcsr = adcsr' := h .adcsr
  have h8 : adres = adres' := ha
  subst h1 h2 h3 h4 h5 h6 h7 h8
  rfl

/-! ### Registers and bits of a state -/

theorem State.reg_setReg (s : State) (r r' : Reg8) (v : Byte) :
    (s.setReg r v).reg r' = if r' = r then v else s.reg r' := Regs.get_set _ _ _ _

@[simp] theorem State.reg_setReg_self (s : State) (r : Reg8) (v : Byte) : (s.setReg r v).reg r = v := by
  simp [State.reg_setReg]

theorem State.reg_setReg_ne (s : State) {r r' : Reg8} (v : Byte) (h : r' ≠ r) :
    (s.setReg r v).reg r' = s.reg r' := by
  simp [State.reg_setReg, h]

theorem bit_regSet (s : State) (r r' : Reg8) (b b' : BitIx) :
    (s.setReg r (bitSet (s.reg r) b)).bit r' b' = (decide (r' = r ∧ b' = b) || s.bit r' b') := by
  by_cases h : r' = r
  · subst h
    rw [State.bit, State.reg_setReg_self, bitSet_getLsbD, State.bit]
    simp
  · simp [State.bit, State.reg_setReg, h]

theorem bit_regClr (s : State) (r r' : Reg8) (b b' : BitIx) :
    (s.setReg r (bitClr (s.reg r) b)).bit r' b' = (!decide (r' = r ∧ b' = b) && s.bit r' b') := by
  by_cases h : r' = r
  · subst h
    rw [State.bit, State.reg_setReg_self, bitClr_getLsbD, State.bit]
    simp
  · simp [State.bit, State.reg_setReg, h]

@[simp] theorem startConversion_reg (s : State) (r : Reg8) :
    (startConversion s).reg r = if r = .adcsr then bitSet (s.reg .adcsr) 6 else s.reg r :=
  Regs.get_set _ _ _ _

@[simp] theorem adcComplete_reg (s : State) (r : Reg8) :
    (adcComplete s).reg r = if r = .adcsr then bitClr (s.reg .adcsr) 6 else s.reg r :=
  (show _ = (s.regs.set .adcsr (bitClr (s.reg .adcsr) 6)).get r by cases r <;> rfl).trans (Regs.get_set _ _ _ _)

end Sys2Proof.Machine
end

