-- ==== Sys2Proof/Laws/Ops.lean ====
section
/-! SUPPORT. What a micro-operation can change, how a command's list runs, and `exec` in one equation. -/

namespace Sys2Proof.Machine

/-! ### Micro-operations (R75) -/

/-- The stored 8-bit register a micro-operation writes, if any. -/
def MicroOp.target : MicroOp → Option Reg8
  | .regSet r _ => some r
  | .regClr r _ => some r
  | .regTst _ _ => none
  | .regWr r _ => some r
  | .regFld r _ _ => some r
  | .regRead _ => none
  | .trigger => some .adcsr
  | .pollBusy => none
  | .skip => none

section
variable (op : MicroOp) (s : State)
@[simp] theorem microState_cfg : (microState op s).cfg = s.cfg := by cases op <;> simp [microState]
@[simp] theorem microState_fault : (microState op s).fault = s.fault := by cases op <;> simp [microState]
@[simp] theorem microState_fcause : (microState op s).fcause = s.fcause := by cases op <;> simp [microState]
@[simp] theorem microState_fword : (microState op s).fword = s.fword := by cases op <;> simp [microState]
@[simp] theorem microState_seq : (microState op s).seq = s.seq := by cases op <;> simp [microState]
@[simp] theorem microState_host : (microState op s).host = s.host := by cases op <;> simp [microState]
@[simp] theorem microState_rsp : (microState op s).rsp = s.rsp := by cases op <;> simp [microState]
@[simp] theorem microState_grain : (microState op s).grain = s.grain := by cases op <;> simp [microState]
@[simp] theorem microState_adres : (microState op s).regs.adres = s.regs.adres := by
  cases op <;> simp [microState]
end

/-- A micro-operation changes no stored register but its target (R75). -/
theorem microState_reg_ne {op : MicroOp} {s : State} {r : Reg8} (h : op.target ≠ some r) :
    (microState op s).reg r = s.reg r := by
  cases op <;> simp_all [microState, MicroOp.target, State.reg_setReg, eq_comm]

/-! ### A command's list -/

@[simp] theorem runOps_single (i : Instr) (op : MicroOp) (k : Nat) (s : State) :
    runOps i [op] k s = respond (microValue op s) (microState op s) := rfl

theorem runOps_cons {i : Instr} {op nxt : MicroOp} {rest : List MicroOp} {k : Nat} {s : State}
    (h : op ≠ .pollBusy) :
    runOps i (op :: nxt :: rest) k s = runOps i (nxt :: rest) (k + 1) (microState op s) := by
  rw [runOps, if_neg (fun c => h c.1)]

/-- The list with no wait runs its micro-operations in order and responds 0 unless its last reads. -/
theorem runOps_append_single {i : Instr} {ops : List MicroOp} {last : MicroOp} {k : Nat} {s : State}
    (h : ∀ op ∈ ops, op ≠ .pollBusy) :
    runOps i (ops ++ [last]) k s =
      respond (microValue last (ops.foldl (fun s op => microState op s) s))
        (microState last (ops.foldl (fun s op => microState op s) s)) := by
  induction ops generalizing k s with
  | nil => rfl
  | cons op rest ih =>
    have hop : op ≠ .pollBusy := h op (by simp)
    have hrest : ∀ o ∈ rest, o ≠ .pollBusy := fun o ho => h o (by simp [ho])
    cases rest with
    | nil => rw [List.singleton_append, runOps_cons hop]; rfl
    | cons o rest => rw [List.cons_append, List.cons_append, runOps_cons hop, ← List.cons_append, ih hrest]; rfl

/-- What every micro-operation of the list and both ways to end keep, the run keeps. -/
theorem runOps_keeps {P : State → Prop} {i : Instr} {ops : List MicroOp} {k : Nat} {s : State}
    (hop : ∀ op ∈ ops, ∀ s, P s → P (microState op s)) (hr : ∀ v s, P s → P (respond v s))
    (ha : ∀ k s, P s → P (atIndex i k s)) (h : P s) : P (runOps i ops k s) := by
  induction ops generalizing k s with
  | nil => exact ha _ _ h
  | cons op rest ih =>
    cases rest with
    | nil => exact hr _ _ (hop op (by simp) _ h)
    | cons nxt rest =>
      rw [runOps]
      split
      · exact ha _ _ h
      · exact ih (fun o ho => hop o (by simp [ho])) (hop op (by simp) _ h)

section
variable (i : Instr) (ops : List MicroOp) (k : Nat) (s : State)
@[simp] theorem runOps_cfg : (runOps i ops k s).cfg = s.cfg :=
  runOps_keeps (P := fun t => t.cfg = s.cfg) (by simp) (by simp) (by simp) rfl
@[simp] theorem runOps_fault : (runOps i ops k s).fault = s.fault :=
  runOps_keeps (P := fun t => t.fault = s.fault) (by simp) (by simp) (by simp) rfl
@[simp] theorem runOps_fcause : (runOps i ops k s).fcause = s.fcause :=
  runOps_keeps (P := fun t => t.fcause = s.fcause) (by simp) (by simp) (by simp) rfl
@[simp] theorem runOps_fword : (runOps i ops k s).fword = s.fword :=
  runOps_keeps (P := fun t => t.fword = s.fword) (by simp) (by simp) (by simp) rfl
@[simp] theorem runOps_host : (runOps i ops k s).host = s.host :=
  runOps_keeps (P := fun t => t.host = s.host) (by simp) (by simp) (by simp) rfl
@[simp] theorem runOps_grain : (runOps i ops k s).grain = s.grain :=
  runOps_keeps (P := fun t => t.grain = s.grain) (by simp) (by simp) (by simp) rfl
@[simp] theorem runOps_adres : (runOps i ops k s).regs.adres = s.regs.adres :=
  runOps_keeps (P := fun t => t.regs.adres = s.regs.adres) (by simp) (by simp) (by simp) rfl
end

/-! ### Runs read neither SEQ nor the response port -/

@[simp] theorem microState_atIndex (op : MicroOp) (i : Instr) (k : Nat) (s : State) :
    microState op (atIndex i k s) = atIndex i k (microState op s) := by
  cases op with
  | regTst h _ => cases h <;> rfl
  | regRead h => cases h <;> rfl
  | _ => rfl

@[simp] theorem microValue_atIndex (op : MicroOp) (i : Instr) (k : Nat) (s : State) :
    microValue op (atIndex i k s) = microValue op s := by
  cases op with
  | regTst h _ => cases h <;> rfl
  | regRead h => cases h <;> rfl
  | _ => rfl

/-- A run from a started command is the run from the state it was started in. -/
theorem runOps_atIndex {i j : Instr} {ops : List MicroOp} {k m : Nat} {s : State} :
    runOps i ops k (atIndex j m s) = runOps i ops k s := by
  induction ops generalizing k s with
  | nil => rfl
  | cons op rest ih =>
    cases rest with
    | nil => rw [runOps_single, runOps_single, microState_atIndex, microValue_atIndex]; rfl
    | cons nxt rest =>
      rw [runOps, runOps, microState_atIndex, ih]
      rfl

/-! ### exec -/

/-- The meaning of every command in one equation: its list run whole, or the refusal of a term that no
word spells. -/
theorem exec_eq (i : Instr) (s : State) :
    exec i s = if i.wf then .next (runOps i (opsOf s.cfg i) 0 s) else .refused .notACommand := by
  cases i <;> rfl

theorem exec_wf {i : Instr} {s : State} (h : i.wf = true) :
    exec i s = .next (runOps i (opsOf s.cfg i) 0 s) := by
  rw [exec_eq, if_pos h]

/-- A well-formed command has at least one entry. -/
theorem opsOf_ne_nil {c : Config} {i : Instr} (h : i.wf = true) : opsOf c i ≠ [] := by
  cases i <;> simp_all [opsOf, setbitOps, clrbitOps, testbitOps, rdregOps, pinmodeOps, dwriteOps, dreadOps,
    pwmwrOps, areadOps, initpwmOps, initadcOps, setupmOps, motorOps, stopallOps]
  all_goals
    rename_i h' _
    simp only [Instr.wf, Handle.bitWritable] at h
    cases e : Handle.bitTarget h' <;> simp_all

end Sys2Proof.Machine
end

