-- ==== Sys2Proof/Laws/Lists.lean ====
section
/-! SUPPORT. What the lists of the commands are made of, said once (10_state.md R22, "written by"). -/

namespace Sys2Proof.Machine

/-- A micro-operation that neither touches the converter's registers nor waits: a bit operation on a
bit-writable register, a whole write of a mode-control or duty register, a read, or nothing. -/
def MicroOp.Plain : MicroOp → Prop
  | .regSet r _ => (Handle.reg r).bitTarget = some r
  | .regClr r _ => (Handle.reg r).bitTarget = some r
  | .regTst _ _ => True
  | .regWr r _ => (∃ t, r = .mca t) ∨ (∃ t, r = .mcb t) ∨ (∃ ch, r = .duty ch)
  | .regFld _ _ _ => False
  | .regRead _ => True
  | .trigger => False
  | .pollBusy => False
  | .skip => True

theorem Handle.bitTarget_self {h : Handle} {r : Reg8} (e : h.bitTarget = some r) :
    (Handle.reg r).bitTarget = some r := by
  cases h with
  | reg r' => cases r' <;> simp [Handle.bitTarget] at e <;> subst e <;> rfl
  | inp g => cases e
  | adres => cases e

theorem MicroOp.Plain.ne_pollBusy {op : MicroOp} (h : op.Plain) : op ≠ .pollBusy := by
  rintro rfl; exact h

theorem MicroOp.Plain.target_ne {op : MicroOp} (h : op.Plain) :
    op.target ≠ some .adcsr ∧ op.target ≠ some .adsel := by
  cases op <;> simp only [MicroOp.Plain] at h
  case regSet r b => cases r <;> simp_all [MicroOp.target, Handle.bitTarget]
  case regClr r b => cases r <;> simp_all [MicroOp.target, Handle.bitTarget]
  case regWr r v => rcases h with ⟨_, rfl⟩ | ⟨_, rfl⟩ | ⟨_, rfl⟩ <;> simp [MicroOp.target]
  all_goals simp [MicroOp.target]

theorem modeOp_plain (c : Config) (p : Pin) (v : Bool) : (modeOp c p v).Plain := by cases v <;> rfl

theorem levelOp_plain (c : Config) (p : Pin) (v : Bool) : (levelOp c p v).Plain := by cases v <;> rfl

theorem dutyOp_plain (c : Config) (p : Pin) (d : Byte) : (dutyOp c p d).Plain := by
  rw [dutyOp]; split
  · exact .inr (.inr ⟨_, rfl⟩)
  · trivial

theorem disconnectOp_plain (c : Config) (p : Pin) : (disconnectOp c p).Plain := by
  rw [disconnectOp]; split
  · rfl
  · trivial

theorem initpwmOps_plain (c : Config) : ∀ op ∈ initpwmOps c, op.Plain := by
  simp [initpwmOps, MicroOp.Plain]

theorem motorOps_plain (c : Config) (m : Motor) (v : Int) : ∀ op ∈ motorOps c m v, op.Plain := by
  simp [motorOps, levelOp_plain, dutyOp_plain]

theorem setupmOps_plain (c : Config) : ∀ op ∈ setupmOps c, op.Plain := by
  intro op h
  rw [setupmOps, List.mem_append, List.mem_append] at h
  rcases h with (h | h) | h
  · simp only [List.mem_cons, List.not_mem_nil, or_false] at h
    rcases h with rfl | rfl | rfl | rfl | rfl | rfl | rfl <;> exact modeOp_plain _ _ _
  · exact initpwmOps_plain c op h
  · simp only [List.mem_cons, List.not_mem_nil, or_false] at h
    rcases h with rfl | rfl
    · exact disconnectOp_plain _ _
    · exact levelOp_plain _ _ _

/-- Every command but AREAD and INITADC is made of plain micro-operations. -/
theorem opsOf_plain {c : Config} {i : Instr} {op : MicroOp} (h : op ∈ opsOf c i)
    (h1 : ∀ k, i ≠ .aread k) (h2 : i ≠ .initadc) : op.Plain := by
  cases i <;> simp only [opsOf] at h
  case setbit hd b =>
    rw [setbitOps] at h
    split at h
    · rename_i e; rw [List.mem_singleton.1 h]; exact Handle.bitTarget_self e
    · cases h
  case clrbit hd b =>
    rw [clrbitOps] at h
    split at h
    · rename_i e; rw [List.mem_singleton.1 h]; exact Handle.bitTarget_self e
    · cases h
  case testbit => rw [List.mem_singleton.1 h]; trivial
  case rdreg => rw [List.mem_singleton.1 h]; trivial
  case pinmode => rw [List.mem_singleton.1 h]; exact modeOp_plain _ _ _
  case dwrite => rw [List.mem_singleton.1 h]; exact levelOp_plain _ _ _
  case dread => rw [List.mem_singleton.1 h]; trivial
  case pwmwr => rw [List.mem_singleton.1 h]; exact dutyOp_plain _ _ _
  case aread k => exact absurd rfl (h1 k)
  case initpwm => exact initpwmOps_plain _ _ h
  case initadc => exact absurd rfl h2
  case setupm => exact setupmOps_plain _ _ h
  case setmotor => exact motorOps_plain _ _ _ _ h
  case drivea => exact motorOps_plain _ _ _ _ h
  case driveb => exact motorOps_plain _ _ _ _ h
  case stopall =>
    rw [stopallOps, List.mem_append] at h
    exact h.elim (motorOps_plain _ _ _ _) (motorOps_plain _ _ _ _)

/-- A plain micro-operation leaves the converter's registers alone. -/
theorem MicroOp.Plain.keeps_converter {op : MicroOp} (h : op.Plain) (s : State) :
    (microState op s).reg .adcsr = s.reg .adcsr ∧ (microState op s).reg .adsel = s.reg .adsel :=
  ⟨microState_reg_ne h.target_ne.1, microState_reg_ne h.target_ne.2⟩

/-- The wait stands only at index 2 of AREAD (R138, R139). -/
theorem pollBusy_only {c : Config} {i : Instr} {k : Nat} (h : (opsOf c i)[k]? = some .pollBusy) :
    (∃ ch, i = .aread ch) ∧ k = 2 := by
  by_cases h1 : ∃ ch, i = .aread ch
  · refine ⟨h1, ?_⟩
    obtain ⟨ch, rfl⟩ := h1
    match k, h with
    | 0, h => cases h
    | 1, h => cases h
    | 2, _ => rfl
    | 3, h => cases h
    | n + 4, h => cases h
  · by_cases h2 : i = .initadc
    · subst h2
      match k, h with
      | 0, h => cases h
      | 1, h => cases h
      | n + 2, h => cases h
    · exact absurd rfl (opsOf_plain (List.mem_of_getElem? h) (fun k e => h1 ⟨k, e⟩) h2).ne_pollBusy

/-! ### The mode-control writes of INITPWM (R121) -/

/-- The state the six whole writes of INITPWM leave. -/
def initPwmState (s : State) : State :=
  (initpwmOps s.cfg).foldl (fun s op => microState op s) s

theorem initPwmState_reg (s : State) (r : Reg8) :
    (initPwmState s).reg r = match r with
      | .mca _ => s.cfg.pwmInitA
      | .mcb _ => s.cfg.pwmInitB
      | .dir g => s.reg (.dir g)
      | .out g => s.reg (.out g)
      | .duty c => s.reg (.duty c)
      | .adsel => s.reg .adsel
      | .adcsr => s.reg .adcsr := by
  simp only [initPwmState, initpwmOps, List.foldl_cons, List.foldl_nil, microState]
  cases r with
  | mca t => revert t; simp [Fin.forall_fin_succ, State.reg_setReg]
  | mcb t => revert t; simp [Fin.forall_fin_succ, State.reg_setReg]
  | _ => simp [State.reg_setReg]

end Sys2Proof.Machine
end

