-- ==== Sys2Proof/Laws/Step.lean ====
section
/-! SUPPORT. What a step can do, said once. -/

namespace Sys2Proof.Machine

/-- What the sequencer can do at `Running(i, k)` (R24, R139). -/
theorem seqStep_cases {i : Instr} {k : Nat} {s t : State} (h : seqStep i k s = .next t) :
    ∃ op, (opsOf s.cfg i)[k]? = some op ∧
      ((op = .pollBusy ∧ busy s = true ∧ t = atIndex i k s)
      ∨ (¬ (op = .pollBusy ∧ busy s = true) ∧ k + 1 = (opsOf s.cfg i).length ∧
          t = respond (microValue op s) (microState op s))
      ∨ (¬ (op = .pollBusy ∧ busy s = true) ∧ k + 1 ≠ (opsOf s.cfg i).length ∧
          t = atIndex i (k + 1) (microState op s))) := by
  rw [seqStep] at h
  split at h
  · cases h
  · rename_i op hop
    refine ⟨op, hop, ?_⟩
    split at h
    · cases h; rename_i hb; exact .inl ⟨hb.1, hb.2, rfl⟩
    · rename_i hb
      split at h
      · cases h; rename_i hl; exact .inr (.inl ⟨hb, hl, rfl⟩)
      · cases h; rename_i hl; exact .inr (.inr ⟨hb, hl, rfl⟩)

/-- What a step with a command running can do (R20): the converter's step, or the sequencer's with the
converter's turn left alone or one nearer. -/
theorem runningStep_cases {i : Instr} {k : Nat} {s t : State} (h : runningStep i k s = .next t) :
    (adcCompleteEnabled s = true ∧ s.convLeft = some 0 ∧ t = adcComplete s)
    ∨ ∃ left, seqStep i k { s with convLeft := left } = .next t ∧
        (left = s.convLeft ∨ ∃ n, s.convLeft = some (n + 1) ∧ left = some n) := by
  rw [runningStep] at h
  split at h
  · rename_i hen
    split at h
    · rename_i hc; cases h; exact .inl ⟨hen, hc, rfl⟩
    · rename_i n hc; exact .inr ⟨some n, h, .inr ⟨n, hc, rfl⟩⟩
    · exact .inr ⟨s.convLeft, h, .inl rfl⟩
  · exact .inr ⟨s.convLeft, h, .inl rfl⟩

/-- What a step with SEQ Idle can do (R81, R174, R175): nothing presented, a word refused, a command run
whole, or a command started. -/
theorem portStep_cases {s t : State} (h : portStep s = .next t) :
    (s.host = [] ∧ t = { s with rsp := none })
    ∨ ∃ w rest, s.host = w :: rest ∧
      ((s.fault = true ∧ t = refuse { s with host := rest })
      ∨ (s.fault = false ∧ ∃ c, decode w = .refused c ∧
          t = refuse { s with host := rest, fault := true, fcause := causeCode c, fword := w })
      ∨ (s.fault = false ∧ ∃ i, decode w = .command i ∧ s.grain = .micro ∧
          t = atIndex i 0 { s with host := rest })
      ∨ (s.fault = false ∧ ∃ i, decode w = .command i ∧ s.grain = .command ∧
          exec i { s with host := rest } = .next t)) := by
  rw [portStep] at h
  split at h
  · rename_i hh; cases h; exact .inl ⟨hh, rfl⟩
  · rename_i w rest hh
    refine .inr ⟨w, rest, hh, ?_⟩
    rw [acceptWord] at h
    split at h
    · rename_i hf; cases h; exact .inl ⟨hf, rfl⟩
    · rename_i hf
      have hf : s.fault = false := by simpa using hf
      split at h
      · rename_i i hd
        rw [startCommand] at h
        split at h
        · rename_i hg; exact .inr (.inr (.inr ⟨hf, i, hd, hg, h⟩))
        · rename_i hg; cases h; exact .inr (.inr (.inl ⟨hf, i, hd, hg, rfl⟩))
      · rename_i c hd
        cases h
        refine .inr (.inl ⟨hf, c, hd, ?_⟩)
        simp [faultEntry, hf]

theorem step_idle {s : State} (h : s.seq = .idle) : step s = portStep s := by simp only [step, h]

theorem step_running {s : State} {i : Instr} {k : Nat} (h : s.seq = .running i k) :
    step s = runningStep i k s := by simp only [step, h]

end Sys2Proof.Machine
end

