-- ==== Sys2Proof/Laws/Converter.lean ====
section
/-! SUPPORT. What the field writes of INITADC, AREAD and the converter do to the fields of ADSEL and ADCSR
(43_adc.md R136, R138, R140). -/

namespace Sys2Proof.Machine

theorem selectChannel_fields : ∀ (old : Byte) (k : AnaChannel),
    (fieldWrite old 0x0F#8 (chselValue k)).extractLsb' 0 4 = BitVec.ofNat 4 k.val ∧
    (fieldWrite old 0x0F#8 (chselValue k)).extractLsb' 4 4 = old.extractLsb' 4 4 := by decide

theorem selectReference_fields (c : Config) (old : Byte) :
    (fieldWrite old 0xF0#8 (refInitValue c)).extractLsb' 0 4 = old.extractLsb' 0 4 ∧
    (fieldWrite old 0xF0#8 (refInitValue c)).extractLsb' 4 4 = c.adcRefInit := by
  rw [refInitValue]
  generalize c.adcRefInit = x
  constructor
  · apply BitVec.eq_of_getLsbD_eq
    intro j hj
    rw [BitVec.getLsbD_extractLsb', fieldWrite_getLsbD, BitVec.getLsbD_extractLsb']
    have : j = 0 ∨ j = 1 ∨ j = 2 ∨ j = 3 := by omega
    rcases this with h | h | h | h <;> subst h <;> simp
  · apply BitVec.eq_of_getLsbD_eq
    intro j hj
    have e : (x ++ 0#4 : BitVec 8).getLsbD (4 + j) = _ := BitVec.getLsbD_append
    rw [BitVec.getLsbD_extractLsb', fieldWrite_getLsbD, e]
    have : j = 0 ∨ j = 1 ∨ j = 2 ∨ j = 3 := by omega
    rcases this with h | h | h | h <;> subst h <;> simp

theorem enable_fields (c : Config) (old : Byte) :
    (fieldWrite old 0x87#8 (divInitValue c)).extractLsb' 3 3 = old.extractLsb' 3 3 ∧
    (fieldWrite old 0x87#8 (divInitValue c)).extractLsb' 0 3 = c.adcDivInit ∧
    (fieldWrite old 0x87#8 (divInitValue c)).getLsbD 7 = true ∧
    (fieldWrite old 0x87#8 (divInitValue c)).getLsbD 6 = old.getLsbD 6 := by
  rw [divInitValue]
  generalize c.adcDivInit = x
  revert x old
  decide

theorem setBusy_fields : ∀ old : Byte,
    (bitSet old 6).extractLsb' 3 3 = old.extractLsb' 3 3 ∧
    (bitSet old 6).extractLsb' 0 3 = old.extractLsb' 0 3 ∧
    (bitSet old 6).getLsbD 7 = old.getLsbD 7 ∧ (bitSet old 6).getLsbD 6 = true := by decide

theorem clearBusy_fields : ∀ old : Byte,
    (bitClr old 6).extractLsb' 3 3 = old.extractLsb' 3 3 ∧
    (bitClr old 6).extractLsb' 0 3 = old.extractLsb' 0 3 ∧
    (bitClr old 6).getLsbD 7 = old.getLsbD 7 ∧ (bitClr old 6).getLsbD 6 = false := by decide

@[simp] theorem busy_adcComplete (s : State) : busy (adcComplete s) = false := by
  rw [busy, State.bit, adcComplete_reg, if_pos rfl]
  exact (clearBusy_fields _).2.2.2

@[simp] theorem busy_startConversion (s : State) : busy (startConversion s) = true := by
  rw [busy, State.bit, startConversion_reg, if_pos rfl]
  exact (setBusy_fields _).2.2.2

/-- The trigger stands only at index 1 of AREAD (R138). -/
theorem trigger_only {c : Config} {i : Instr} {k : Nat} (h : (opsOf c i)[k]? = some .trigger) :
    (∃ ch, i = .aread ch) ∧ k = 1 := by
  by_cases h1 : ∃ ch, i = .aread ch
  · refine ⟨h1, ?_⟩
    obtain ⟨ch, rfl⟩ := h1
    match k, h with
    | 0, h => cases h
    | 1, _ => rfl
    | 2, h => cases h
    | 3, h => cases h
    | n + 4, h => cases h
  · by_cases h2 : i = .initadc
    · subst h2
      match k, h with
      | 0, h => cases h
      | 1, h => cases h
      | n + 2, h => cases h
    · exact (opsOf_plain (List.mem_of_getElem? h) (fun k e => h1 ⟨k, e⟩) h2).elim

/-- No micro-operation of a command but the trigger changes BUSY (R30). -/
theorem busy_microState {s : State} {i : Instr} {op : MicroOp} (hop : op ∈ opsOf s.cfg i)
    (h : op ≠ .trigger) : busy (microState op s) = busy s := by
  rw [busy, busy, State.bit, State.bit]
  by_cases h1 : ∃ k, i = .aread k
  · obtain ⟨k, rfl⟩ := h1
    simp only [opsOf, areadOps, List.mem_cons, List.not_mem_nil, or_false] at hop
    rcases hop with rfl | rfl | rfl | rfl
    · simp [microState, State.reg_setReg]
    · exact absurd rfl h
    · rfl
    · rfl
  · by_cases h2 : i = .initadc
    · subst h2
      simp only [opsOf, initadcOps, List.mem_cons, List.not_mem_nil, or_false] at hop
      rcases hop with rfl | rfl
      · simp [microState, State.reg_setReg]
      · simp only [microState, State.reg_setReg_self]
        exact (enable_fields s.cfg _).2.2.2
    · rw [((opsOf_plain hop (fun k e => h1 ⟨k, e⟩) h2).keeps_converter s).1]

/-- AREAD run whole stops at its wait with its channel selected and BUSY set (R138, R139). -/
theorem runOps_aread (c : Config) (k : AnaChannel) (s : State) :
    runOps (.aread k) (opsOf c (.aread k)) 0 s =
      atIndex (.aread k) 2
        (startConversion (s.setReg .adsel (fieldWrite (s.reg .adsel) 0x0F#8 (chselValue k)))) := by
  show runOps _ (areadOps k) 0 s = _
  rw [areadOps, runOps_cons (by simp), runOps_cons (by simp), runOps, if_pos ⟨rfl, busy_startConversion _⟩]
  rfl

/-- A command whose list has no wait ends with its response. -/
theorem runOps_idle {c : Config} {i : Instr} {s : State} (hw : i.wf = true) (h : ∀ k, i ≠ .aread k) :
    (runOps i (opsOf c i) 0 s).seq = .idle := by
  obtain ⟨l, x, hx⟩ := (List.eq_nil_or_concat (opsOf c i)).resolve_left (opsOf_ne_nil hw)
  rw [hx, List.concat_eq_append, runOps_append_single]
  · rfl
  · rintro op hop rfl
    obtain ⟨n, hn⟩ := List.mem_iff_getElem?.1 hop
    have hn' : (opsOf c i)[n]? = some .pollBusy := by
      rw [hx, List.concat_eq_append, List.getElem?_append_left (List.getElem?_eq_some_iff.1 hn).1, hn]
    obtain ⟨⟨ch, rfl⟩, -⟩ := pollBusy_only hn'
    exact h ch rfl

/-- Micro-operations that neither trigger nor wait, run one step each while BUSY is 0: mid stands in the list
of i behind pre and before its end (R24). -/
theorem runSteps_ops {i : Instr} {pre mid post : List MicroOp} {s : State}
    (hops : opsOf s.cfg i = pre ++ (mid ++ post)) (hpost : post ≠ [])
    (hmid : ∀ op ∈ mid, op ≠ .pollBusy ∧ op ≠ .trigger) (hb : busy s = false) :
    runSteps mid.length (atIndex i pre.length s) =
      .next (atIndex i (pre.length + mid.length) (mid.foldl (fun s op => microState op s) s)) := by
  induction mid generalizing pre s with
  | nil => rfl
  | cons op mid ih =>
    have hget : (opsOf s.cfg i)[pre.length]? = some op := by rw [hops]; simp
    have hmem := List.mem_of_getElem? hget
    have hop := hmid op (by simp)
    have hlen : pre.length + 1 ≠ (opsOf s.cfg i).length := by
      have := List.length_pos_of_ne_nil hpost
      rw [hops]
      simp only [List.length_append, List.length_cons]
      omega
    have hrun : step (atIndex i pre.length s) = .next (atIndex i (pre.length + 1) (microState op s)) := by
      rw [step_running rfl, runningStep, adcCompleteEnabled,
        show busy (atIndex i pre.length s) = false from hb, Bool.and_false, if_neg (by simp), seqStep,
        atIndex_cfg, hget]
      simp only
      rw [if_neg (fun h => hop.1 h.1), if_neg hlen, microState_atIndex]
      rfl
    rw [List.length_cons, runSteps, hrun]
    simp only
    have := ih (pre := pre ++ [op]) (s := microState op s) (by simp [hops])
      (fun o ho => hmid o (by simp [ho])) (by rw [busy_microState hmem hop.2, hb])
    rw [List.length_append, List.length_singleton] at this
    rw [this, List.foldl_cons, Nat.add_assoc, Nat.add_comm 1]

end Sys2Proof.Machine
end

