-- ==== Sys2Proof/Laws/Decode.lean ====
section
/-! SUPPORT. The decoder seen from a word's opcode byte, the handle table both ways, the fields of an encoded
command. -/

namespace Sys2Proof

theorem Op.ofByte_code (o : Op) : Op.ofByte o.code = some o := by cases o <;> decide

theorem Op.code_of_ofByte {x : Byte} {o : Op} (h : Op.ofByte x = some o) : o.code = x := by
  simpa using List.find?_some h

theorem Op.mem_all (o : Op) : o ∈ Op.all := by cases o <;> decide

theorem Op.code_inj {o o' : Op} (h : o.code = o'.code) : o = o' := by
  have := Op.ofByte_code o
  rw [h, Op.ofByte_code] at this
  exact (Option.some.inj this).symm

/-- A word whose opcode byte is no opcode is refused ILLEGAL_OP (R92). -/
theorem decode_illegal {w : Word} (h : ∀ o : Op, o.code ≠ opField w) : decode w = .refused .illegalOp := by
  have : Op.ofByte (opField w) = none := by
    rw [Op.ofByte, List.find?_eq_none]
    intro o _
    simpa using h o
  simp only [decode, this]

/-- Decoding under a legal opcode (R91). -/
theorem decode_of_code {w : Word} {o : Op} (h : opField w = o.code) :
    decode w = if w &&& o.fmask = o.fmatch then decodeOperands w o else .refused .reservedField := by
  simp only [decode, h, Op.ofByte_code]

/-! ### The three fields of a word (R82) -/

theorem wordOf_getLsbD (x a b : Byte) (i : Nat) :
    (wordOf x a b).getLsbD i =
      if i < 8 then b.getLsbD i else if i < 16 then a.getLsbD (i - 8) else x.getLsbD (i - 16) := by
  have h1 : (wordOf x a b).getLsbD i =
      if i < 16 then (a ++ b : BitVec 16).getLsbD i else x.getLsbD (i - 16) := BitVec.getLsbD_append
  have h2 : (a ++ b : BitVec 16).getLsbD i = if i < 8 then b.getLsbD i else a.getLsbD (i - 8) :=
    BitVec.getLsbD_append
  rw [h1, h2]
  split <;> split <;> first | rfl | omega

@[simp] theorem opField_wordOf (x a b : Byte) : opField (wordOf x a b) = x := by
  apply BitVec.eq_of_getLsbD_eq
  intro j hj
  rw [opField, BitVec.getLsbD_extractLsb', wordOf_getLsbD, if_neg (by omega), if_neg (by omega),
    Nat.add_sub_cancel_left, decide_eq_true hj, Bool.true_and]

@[simp] theorem aField_wordOf (x a b : Byte) : aField (wordOf x a b) = a := by
  apply BitVec.eq_of_getLsbD_eq
  intro j hj
  rw [aField, BitVec.getLsbD_extractLsb', wordOf_getLsbD, if_neg (by omega), if_pos (by omega),
    Nat.add_sub_cancel_left, decide_eq_true hj, Bool.true_and]

@[simp] theorem bField_wordOf (x a b : Byte) : bField (wordOf x a b) = b := by
  apply BitVec.eq_of_getLsbD_eq
  intro j hj
  rw [bField, BitVec.getLsbD_extractLsb', wordOf_getLsbD, if_pos (by omega), Nat.zero_add,
    decide_eq_true hj, Bool.true_and]

/-- Every word is its three fields. -/
theorem wordOf_fields (w : Word) : wordOf (opField w) (aField w) (bField w) = w := by
  apply BitVec.eq_of_getLsbD_eq
  intro j hj
  rw [wordOf_getLsbD, opField, aField, bField]
  simp only [BitVec.getLsbD_extractLsb']
  split
  · rename_i h; simp [h]
  · split
    · have e : 8 + (j - 8) = j := by omega
      have h : j - 8 < 8 := by omega
      simp [e, h]
    · have e : 16 + (j - 16) = j := by omega
      have h : j - 16 < 8 := by omega
      simp [e, h]

theorem wordOf_and (x a b x' a' b' : Byte) :
    wordOf x a b &&& wordOf x' a' b' = wordOf (x &&& x') (a &&& a') (b &&& b') := by
  apply BitVec.eq_of_getLsbD_eq
  intro j hj
  rw [BitVec.getLsbD_and, wordOf_getLsbD, wordOf_getLsbD, wordOf_getLsbD]
  split
  · rw [BitVec.getLsbD_and]
  · split <;> rw [BitVec.getLsbD_and]

theorem wordOf_inj {x a b x' a' b' : Byte} :
    wordOf x a b = wordOf x' a' b' ↔ x = x' ∧ a = a' ∧ b = b' := by
  constructor
  · intro h
    exact ⟨by simpa using congrArg opField h, by simpa using congrArg aField h,
      by simpa using congrArg bField h⟩
  · rintro ⟨rfl, rfl, rfl⟩; rfl

/-- The must-be-zero bits of A under an opcode (R90). -/
def Op.aZeros : Op → Byte
  | .setbit | .clrbit | .testbit | .rdreg | .pinmode | .dwrite | .dread | .pwmwr => 0xE0#8
  | .aread => 0xF0#8
  | .initpwm | .initadc | .setupm | .stopall => 0xFF#8
  | .setmotor => 0x7E#8
  | .drivea | .driveb => 0xFE#8

/-- The must-be-zero bits of B under an opcode (R90). -/
def Op.bZeros : Op → Byte
  | .setbit | .clrbit | .testbit => 0xF8#8
  | .pinmode | .dwrite => 0xFE#8
  | .rdreg | .dread | .aread | .initpwm | .initadc | .setupm | .stopall => 0xFF#8
  | .pwmwr | .setmotor | .drivea | .driveb => 0x00#8

/-- The match test of R90, field by field, once the opcode byte matches. -/
theorem matches_iff {w : Word} {o : Op} (h : opField w = o.code) :
    w &&& o.fmask = o.fmatch ↔ aField w &&& o.aZeros = 0#8 ∧ bField w &&& o.bZeros = 0#8 := by
  have hm : o.fmask = wordOf 0xFF#8 o.aZeros o.bZeros := by cases o <;> decide
  have he : o.fmatch = wordOf o.code 0#8 0#8 := by cases o <;> decide
  rw [hm, he, ← wordOf_fields w, wordOf_and, wordOf_inj, h]
  have : o.code &&& 0xFF#8 = o.code := by cases o <;> decide
  simp [this]

/-- The test of a mask of must-be-zero bits, field by field. -/
theorem zeros_iff (w m : Word) (h : opField m = 0#8) :
    w &&& m = 0#24 ↔ aField w &&& aField m = 0#8 ∧ bField w &&& bField m = 0#8 := by
  have h0 : (0#24 : Word) = wordOf 0#8 0#8 0#8 := by decide
  rw [← wordOf_fields w, ← wordOf_fields m, wordOf_and, h0, wordOf_inj, h]
  simp

/-! ### Handles (R22) -/

theorem Handle.ofNum_num (h : Handle) : Handle.ofNum h.num = some h := by
  cases h with
  | reg r =>
    cases r with
    | dir g => cases g <;> decide
    | out g => cases g <;> decide
    | mca t => revert t; decide
    | mcb t => revert t; decide
    | duty c => revert c; decide
    | adsel => decide
    | adcsr => decide
  | inp g => cases g <;> decide
  | adres => decide

theorem Handle.num_of_ofNum {n : BitVec 5} {h : Handle} (e : Handle.ofNum n = some h) : h.num = n := by
  revert h e
  revert n
  decide

/-! ### Fields of an encoded command (R82 to R88) -/

@[simp] theorem opField_encode (i : Instr) : opField (encode i) = i.op.code := opField_wordOf _ _ _

@[simp] theorem aField_encode (i : Instr) : aField (encode i) = i.aBits := aField_wordOf _ _ _

@[simp] theorem bField_encode (i : Instr) : bField (encode i) = i.bBits := bField_wordOf _ _ _

theorem speedBits_toInt {v : Int} (h : speedOk v = true) : (speedBits v).toInt = v := by
  simp only [speedOk, decide_eq_true_eq] at h
  rw [speedBits, BitVec.toInt_ofInt]
  simp only [Int.bmod_def]
  omega

theorem speedBits_ne {v : Int} (h : speedOk v = true) : speedBits v ≠ 0x100#9 := by
  intro e
  have := speedBits_toInt h
  rw [e] at this
  simp only [speedOk, decide_eq_true_eq] at h
  have h2 : (0x100#9).toInt = -256 := by decide
  omega

end Sys2Proof
end

