-- ==== Sys2Proof/Laws/Pads.lean ====
section
/-! SUPPORT. What the pads and the input views are functions of (10_state.md R25, R40, R42). -/

namespace Sys2Proof.Machine

/-- A pad's drive is a function of the configuration and the stored 8-bit registers (R40). -/
theorem padDrive_congr {s t : State} (hc : t.cfg = s.cfg) (hr : ∀ r, t.reg r = s.reg r) (p : Pin) :
    padDrive t p = padDrive s p := by
  simp only [padDrive, channelDrive, outDrive, connected, pwmActive, wgm, clockSelect, State.bit, hc, hr]
  cases channelOf s.cfg p <;> rfl

/-- PINMAP is injective (R5): the bit a pin sits on carries that pin. -/
theorem pinOfBit_some {c : Config} (hc : c.Ok) {p : Pin} {g : Group} {b : BitIx}
    (h : pinAt c p = (g, b)) : pinOfBit c g b = some p := by
  have : (pinOfBit c g b).isSome := by
    rw [pinOfBit, List.find?_isSome]; exact ⟨p, by simp, by simp [h]⟩
  obtain ⟨q, hq⟩ := Option.isSome_iff_exists.1 this
  have hfound := List.find?_some hq
  have hpq : pinAt c q = pinAt c p := by simpa [h] using hfound
  rw [hq, hc.1 q p hpq]

theorem pinOfBit_none {c : Config} {g : Group} {b : BitIx} (h : ∀ p, pinAt c p ≠ (g, b)) :
    pinOfBit c g b = none := by
  rw [pinOfBit, List.find?_eq_none]
  intro p _
  simpa using h p

/-- Two pins on one group bit are one pin (R5). -/
theorem pinAt_inj {c : Config} (hc : c.Ok) {p q : Pin} (h : pinAt c p = pinAt c q) : p = q := hc.1 p q h

/-- Two pins with one channel are one pin (R6). -/
theorem channelOf_inj {c : Config} (hc : c.Ok) {p q : Pin} {ch : Channel} (hp : channelOf c p = some ch)
    (hq : channelOf c q = some ch) : p = q := hc.2.2.2.1 p q ch hp hq

/-- A channel is its timer with its connection bit (R6, R26). -/
theorem channel_ext {c d : Channel} (ht : timerOf c = timerOf d) (hb : coBit c = coBit d) : c = d := by
  have h1 := congrArg Fin.val ht
  have h2 := congrArg Fin.val hb
  simp only [timerOf, coBit] at h1 h2
  apply Fin.ext
  omega

theorem readHandle_inp_bit (s : State) (g : Group) (b : BitIx) :
    (readHandle s (.inp g)).getLsbD b.val = padLevel s g b := by
  have hb := b.isLt
  rw [readHandle, BitVec.getLsbD_setWidth, inputView, BitVec.getLsbD_ofFnLE, dif_pos hb]
  simp
  omega

/-- The bit RegTst reads is that bit of the whole read (R11, R104(d)). -/
theorem readHandle_getLsbD (s : State) (h : Handle) (b : BitIx) :
    (readHandle s h).getLsbD b.val = readBit s h b := by
  cases h with
  | inp g => exact readHandle_inp_bit s g b
  | _ => rw [readHandle, BitVec.getLsbD_setWidth, decide_eq_true (by omega), Bool.true_and]; rfl

theorem levelOfDrive_else {d : Drive} {x : Bool} (h : d ≠ .H) (h' : d ≠ .L) : levelOfDrive d x = x := by
  cases d <;> simp_all [levelOfDrive]

theorem padLevel_pin {s : State} (hc : s.cfg.Ok) {p : Pin} {g : Group} {b : BitIx}
    (h : pinAt s.cfg p = (g, b)) :
    padLevel s g b = levelOfDrive (padDrive s p) (Config.envLevel s.draws g b) := by
  simp [padLevel, pinOfBit_some hc h]

end Sys2Proof.Machine
end

