-- ==== Sys2Proof/Laws/Effects.lean ====
section
/-! SUPPORT. The effects of micro-operations in the terms of Safety (Frame, BitsKept), of commands with one
micro-operation, and of the bits a pad's drive depends on. -/

namespace Sys2Proof.Machine

/-- A command whose list is one micro-operation. -/
theorem exec_single {i : Instr} {op : MicroOp} {s : State} (hw : i.wf = true) (h : opsOf s.cfg i = [op]) :
    exec i s = .next (respond (microValue op s) (microState op s)) := by
  rw [exec_wf hw, h, runOps_single]

/-! ### Frames -/

theorem Frame.refl (s : State) (l : List Reg8) : Frame s s l := ⟨fun _ _ => rfl, rfl, rfl, rfl, rfl, rfl, rfl, rfl⟩

theorem Frame.trans {s t u : State} {l : List Reg8} (h : Frame s t l) (h' : Frame t u l) : Frame s u l :=
  ⟨fun r hr => (h'.regs r hr).trans (h.regs r hr), h'.adres.trans h.adres, h'.cfg.trans h.cfg,
    h'.fault.trans h.fault, h'.fcause.trans h.fcause, h'.fword.trans h.fword, h'.host.trans h.host,
    h'.grain.trans h.grain⟩

theorem Frame.mono {s t : State} {l l' : List Reg8} (h : Frame s t l) (hl : ∀ r ∈ l, r ∈ l') : Frame s t l' :=
  ⟨fun r hr => h.regs r fun hm => hr (hl r hm), h.adres, h.cfg, h.fault, h.fcause, h.fword, h.host, h.grain⟩

theorem Frame.respond {s t : State} {v : Data} {l : List Reg8} (h : Frame s t l) :
    Frame s (respond v t) l := ⟨h.1, h.2, h.3, h.4, h.5, h.6, h.7, h.8⟩

theorem Frame.atIndex {s t : State} {i : Instr} {k : Nat} {l : List Reg8} (h : Frame s t l) :
    Frame s (atIndex i k t) l := ⟨h.1, h.2, h.3, h.4, h.5, h.6, h.7, h.8⟩

/-- A micro-operation's frame is its target (R75). -/
theorem frame_microState {s : State} {op : MicroOp} {l : List Reg8} (h : ∀ r, op.target = some r → r ∈ l) :
    Frame s (microState op s) l :=
  ⟨fun r hr => microState_reg_ne fun e => hr (h r e), by simp, by simp, by simp, by simp, by simp, by simp, by simp⟩

theorem bitsKept_regSet {s : State} {r : Reg8} {b : BitIx} :
    BitsKept s (microState (.regSet r b) s) [(r, b)] := by
  intro r' b' h
  rw [List.mem_singleton, Prod.mk.injEq] at h
  rw [microState, bit_regSet, decide_eq_false h, Bool.false_or]

theorem bitsKept_regClr {s : State} {r : Reg8} {b : BitIx} :
    BitsKept s (microState (.regClr r b) s) [(r, b)] := by
  intro r' b' h
  rw [List.mem_singleton, Prod.mk.injEq] at h
  rw [microState, bit_regClr, decide_eq_false h, Bool.not_false, Bool.true_and]

/-- RegSet or RegClr by a level (R110, R111, R153): one bit takes the level. -/
theorem regLevel_effect (s : State) (r : Reg8) (b : BitIx) (v : Bool) :
    (microState (regLevel r b v) s).bit r b = v ∧ BitsKept s (microState (regLevel r b v) s) [(r, b)] ∧
    Frame s (microState (regLevel r b v) s) [r] ∧ NoDraw s (microState (regLevel r b v) s) ∧
    microValue (regLevel r b v) s = 0#16 := by
  cases v
  · exact ⟨by simp [regLevel, microState, bit_regClr], bitsKept_regClr,
      frame_microState (by simp [MicroOp.target, regLevel]), ⟨rfl, rfl⟩, rfl⟩
  · exact ⟨by simp [regLevel, microState, bit_regSet], bitsKept_regSet,
      frame_microState (by simp [MicroOp.target, regLevel]), ⟨rfl, rfl⟩, rfl⟩

theorem regLevel_bit (s : State) (r r' : Reg8) (b b' : BitIx) (v : Bool) :
    (microState (regLevel r b v) s).bit r' b' = if r' = r ∧ b' = b then v else s.bit r' b' := by
  split
  · rename_i h
    rw [h.1, h.2]
    exact (regLevel_effect s r b v).1
  · rename_i h
    exact (regLevel_effect s r b v).2.1 r' b' (by simpa using h)

theorem regLevel_reg_ne (s : State) {r r' : Reg8} (b : BitIx) (v : Bool) (h : r' ≠ r) :
    (microState (regLevel r b v) s).reg r' = s.reg r' :=
  (regLevel_effect s r b v).2.2.1.regs r' (by simpa using h)

/-! ### Pads -/

/-- The bits and registers a pad's drive depends on (R40). -/
theorem padDrive_of_bits {s t : State} {p : Pin} (hc : t.cfg = s.cfg)
    (hd : t.bit (dirOf s.cfg p) (bitOf s.cfg p) = s.bit (dirOf s.cfg p) (bitOf s.cfg p))
    (ho : t.bit (outOf s.cfg p) (bitOf s.cfg p) = s.bit (outOf s.cfg p) (bitOf s.cfg p))
    (hr : ∀ ch, channelOf s.cfg p = some ch → t.reg (.mca (timerOf ch)) = s.reg (.mca (timerOf ch)) ∧
      t.reg (.mcb (timerOf ch)) = s.reg (.mcb (timerOf ch)) ∧ t.reg (.duty ch) = s.reg (.duty ch)) :
    padDrive t p = padDrive s p := by
  have e : outDrive t p = outDrive s p := by rw [outDrive, outDrive, hc, ho]
  rw [padDrive, padDrive, hc, hd]
  cases h : channelOf s.cfg p with
  | none => simp only [e]
  | some ch =>
    obtain ⟨h1, h2, h3⟩ := hr ch h
    simp only [channelDrive, connected, pwmActive, wgm, clockSelect, State.bit, e, h1, h2, h3]
    rfl

/-- An output whose channel, if it has one, is not connected is driven from its output bit (R40). -/
theorem padDrive_output {s : State} {p : Pin} (hd : s.bit (dirOf s.cfg p) (bitOf s.cfg p) = true)
    (hc : ∀ ch, channelOf s.cfg p = some ch → connected s ch = false) :
    padDrive s p = if s.bit (outOf s.cfg p) (bitOf s.cfg p) then .H else .L := by
  rw [padDrive, hd, if_pos rfl]
  cases e : channelOf s.cfg p with
  | none => rfl
  | some ch => simp only [channelDrive, hc ch e, Bool.false_eq_true, if_false]; rfl

/-- An output whose channel is connected to an active timer drives PWM of the channel's duty (R40). -/
theorem padDrive_pwm {s : State} {p : Pin} {ch : Channel} (hch : channelOf s.cfg p = some ch)
    (hd : s.bit (dirOf s.cfg p) (bitOf s.cfg p) = true) (hc : connected s ch = true)
    (ha : pwmActive s (timerOf ch) = true) : padDrive s p = .PWM (s.reg (.duty ch)) := by
  rw [padDrive, hd, if_pos rfl, hch]
  simp only [channelDrive, hc, ha, if_true]

/-! ### Duty writes -/

theorem dutyOp_reg (s : State) (p : Pin) (d : Byte) (r : Reg8) :
    (microState (dutyOp s.cfg p d) s).reg r =
      if (∃ ch, channelOf s.cfg p = some ch ∧ r = .duty ch) then d else s.reg r := by
  rw [dutyOp]
  cases e : channelOf s.cfg p with
  | none => simp [microState]
  | some ch => simp [microState, State.reg_setReg]

theorem dutyOp_noDraw (s : State) (c : Config) (p : Pin) (d : Byte) :
    NoDraw s (microState (dutyOp c p d) s) ∧ microValue (dutyOp c p d) s = 0#16 := by
  rw [dutyOp]
  cases channelOf c p <;> exact ⟨⟨rfl, rfl⟩, rfl⟩

end Sys2Proof.Machine
end

