-- ==== Sys2Proof/Laws/PerInstr.lean ====
section
/-! SUPPORT. One lemma per constructor of Instr for the family named in LAWS.json: the word of a command has
the fixed bits of its row of the opcode table (30_encoding.md R90). -/

namespace Sys2Proof.Laws.EncodeMatchesRow

/-- The command's word passes the match and mask of its own row. -/
def Statement (i : Instr) : Prop := encode i &&& i.op.fmask = i.op.fmatch

theorem of_fields {i : Instr} (ha : i.aBits &&& i.op.aZeros = 0#8) (hb : i.bBits &&& i.op.bZeros = 0#8) :
    Statement i :=
  (matches_iff (opField_encode i)).2 (by simpa using ⟨ha, hb⟩)

theorem handleZeros : ∀ n : BitVec 5, (0#3 ++ n : Byte) &&& 0xE0#8 = 0#8 := by decide

theorem bitZeros : ∀ b : BitIx, (0#5 ++ bitBits b : Byte) &&& 0xF8#8 = 0#8 := by decide

theorem levelZeros : ∀ v : Bool, (0#7 ++ levelBit v : Byte) &&& 0xFE#8 = 0#8 := by decide

theorem signZeros : ∀ x : BitVec 1, (0#7 ++ x : Byte) &&& 0xFE#8 = 0#8 := by decide

theorem setbit (h : Handle) (b : BitIx) : Statement (.setbit h b) := of_fields (handleZeros _) (bitZeros _)
theorem clrbit (h : Handle) (b : BitIx) : Statement (.clrbit h b) := of_fields (handleZeros _) (bitZeros _)
theorem testbit (h : Handle) (b : BitIx) : Statement (.testbit h b) := of_fields (handleZeros _) (bitZeros _)
theorem rdreg (h : Handle) : Statement (.rdreg h) := of_fields (handleZeros _) (show 0#8 &&& 0xFF#8 = 0#8 by decide)
theorem pinmode (p : Pin) (v : Bool) : Statement (.pinmode p v) := of_fields (handleZeros _) (levelZeros _)
theorem dwrite (p : Pin) (v : Bool) : Statement (.dwrite p v) := of_fields (handleZeros _) (levelZeros _)
theorem dread (p : Pin) : Statement (.dread p) := of_fields (handleZeros _) (show 0#8 &&& 0xFF#8 = 0#8 by decide)
theorem pwmwr (p : Pin) (d : Byte) : Statement (.pwmwr p d) :=
  of_fields (handleZeros _) (BitVec.and_zero)
theorem aread (k : AnaChannel) : Statement (.aread k) := of_fields (by revert k; decide) (show 0#8 &&& 0xFF#8 = 0#8 by decide)
theorem initpwm : Statement .initpwm := of_fields (by decide) (by decide)
theorem initadc : Statement .initadc := of_fields (by decide) (by decide)
theorem setupm : Statement .setupm := of_fields (by decide) (by decide)
theorem setmotor (m : Motor) (v : Int) : Statement (.setmotor m v) :=
  of_fields
    (show (motorBit m ++ 0#6 ++ (speedBits v).extractLsb' 8 1 : Byte) &&& 0x7E#8 = 0#8 by
      generalize (speedBits v).extractLsb' 8 1 = x
      generalize motorBit m = y
      revert x y; decide)
    BitVec.and_zero
theorem drivea (v : Int) : Statement (.drivea v) := of_fields (signZeros _) BitVec.and_zero
theorem driveb (v : Int) : Statement (.driveb v) := of_fields (signZeros _) BitVec.and_zero
theorem stopall : Statement .stopall := of_fields (by decide) (by decide)

end Sys2Proof.Laws.EncodeMatchesRow
end

