-- ==== Sys2Proof/Laws/Ports.lean ====
section
/-! SUPPORT. What the response port shows (R80, R98). -/

namespace Sys2Proof.Machine

variable {s : State} {r : Response}

@[simp] theorem rspValid_iff : rspValid s = true ↔ s.rsp ≠ none := by simp [rspValid, Option.isSome_iff_ne_none]

theorem rspErr_of_rsp (h : s.rsp = some r) : rspErr s = r.err := by simp [rspErr, h]

theorem rspData_of_rsp (h : s.rsp = some r) : rspData s = r.data := by simp [rspData, h]

/-- "0 when `rsp_err` = 1" (R80) holds on the port also while no response is presented. -/
theorem rspData_of_rspErr_unpresented (h : s.rsp = none) (he : rspErr s = true) : rspData s = 0x0000#16 := by
  simp [rspData, h, he]

end Sys2Proof.Machine
end

