-- ==== Sys2Proof/Machine/Asm.lean ====
section
/-! DEFINITION. The assembler syntax and the pseudo-commands (30_encoding.md R96, R97). No part of the step
(D32); a line of text becomes a command, or is refused. -/

namespace Sys2Proof.Machine

/-! ### Pseudo-commands (R97) -/

/-- `DISCPWM p`: the clear of the connection bit of the pin's channel; refused for a pin without one. -/
def discPwm (c : Config) (p : Pin) : Option Instr :=
  (channelOf c p).map (fun ch => .clrbit (.reg (.mca (timerOf ch))) (coBit ch))

/-- `BRAKEA` = `DRIVEA 0`. -/
def brakeA : Instr := .drivea 0

/-- `BRAKEB` = `DRIVEB 0`. -/
def brakeB : Instr := .driveb 0

/-! ### Words of a line -/

/-- A blank of a line (log 17). -/
def isBlank (ch : Char) : Bool := ch == ' ' || ch == '\t'

/-- The characters with the blanks at both ends dropped. -/
def trim (cs : List Char) : List Char :=
  ((cs.dropWhile isBlank).reverse.dropWhile isBlank).reverse

/-- The part before a comment: "from `;` to the end of the line" (R96). -/
def dropComment (cs : List Char) : List Char := cs.takeWhile (fun ch => ch != ';')

/-- The pieces between commas. -/
def splitCommas : List Char → List (List Char)
  | [] => [[]]
  | ch :: rest =>
    if ch == ',' then [] :: splitCommas rest
    else
      match splitCommas rest with
      | [] => [[ch]]
      | piece :: pieces => (ch :: piece) :: pieces

/-- The operands of a line after its mnemonic: none, or pieces separated by commas. -/
def operandsOf (cs : List Char) : List (List Char) :=
  if (trim cs).isEmpty then [] else (splitCommas cs).map trim

/-! ### Numbers and names (R96) -/

/-- The value of a digit below the base. -/
def digitValue (base : Nat) (ch : Char) : Option Nat :=
  let n := ch.toNat
  let v := if 48 ≤ n ∧ n ≤ 57 then n - 48
    else if 65 ≤ n ∧ n ≤ 70 then n - 55
    else if 97 ≤ n ∧ n ≤ 102 then n - 87
    else 16
  if v < base then some v else none

/-- The number that digits spell, most significant first, on top of those already read. -/
def digitsValue (base : Nat) : List Char → Nat → Option Nat
  | [], acc => some acc
  | ch :: rest, acc =>
    match digitValue base ch with
    | some d => digitsValue base rest (acc * base + d)
    | none => none

/-- "unsigned decimal or `0x` hexadecimal numbers" (R96). -/
def parseNat : List Char → Option Nat
  | [] => none
  | ['0', 'x'] => none
  | '0' :: 'x' :: rest => digitsValue 16 rest 0
  | cs => digitsValue 10 cs 0

/-- "a signed decimal number" (R96). -/
def parseInt : List Char → Option Int
  | [] => none
  | ['-'] => none
  | '-' :: rest => (digitsValue 10 rest 0).map (fun n => -(n : Int))
  | cs => (digitsValue 10 cs 0).map (fun n => (n : Int))

/-- A number below a bound. -/
def parseFin (n : Nat) (cs : List Char) : Option (Fin n) :=
  match parseNat cs with
  | some k => if h : k < n then some ⟨k, h⟩ else none
  | none => none

/-- "A level is `0` or `1`" (R96). DESIGN CHOICE (log 17): the model reads any number form of R96 whose value is
0 or 1, so `0x1` and `01` are levels too. -/
def parseLevel (cs : List Char) : Option Bool :=
  (parseFin 2 cs).map (fun v => decide (v = 1))

/-- "A motor is `A` or `B`" (R96). -/
def parseMotor : List Char → Option Motor
  | ['A'] => some .A
  | ['B'] => some .B
  | _ => none

/-- The register names of R22. -/
def handleNames : List (String × Handle) :=
  [("DIR_B", .reg (.dir .B)), ("OUT_B", .reg (.out .B)), ("IN_B", .inp .B),
   ("DIR_C", .reg (.dir .C)), ("OUT_C", .reg (.out .C)), ("IN_C", .inp .C),
   ("DIR_D", .reg (.dir .D)), ("OUT_D", .reg (.out .D)), ("IN_D", .inp .D),
   ("MCA0", .reg (.mca 0)), ("MCB0", .reg (.mcb 0)), ("MCA1", .reg (.mca 1)), ("MCB1", .reg (.mcb 1)),
   ("MCA2", .reg (.mca 2)), ("MCB2", .reg (.mcb 2))]
  ++ [("DUTY0", .reg (.duty 0)), ("DUTY1", .reg (.duty 1)), ("DUTY2", .reg (.duty 2)),
   ("DUTY3", .reg (.duty 3)), ("DUTY4", .reg (.duty 4)), ("DUTY5", .reg (.duty 5)),
   ("ADSEL", .reg .adsel), ("ADCSR", .reg .adcsr), ("ADRES", .adres)]

/-- A handle "by its register name ... or as a number" (R96). -/
def parseHandle (cs : List Char) : Option Handle :=
  match handleNames.find? (fun x => x.1.toList == cs) with
  | some x => some x.2
  | none => (parseFin 32 cs).bind (fun h => Handle.ofNum (BitVec.ofNat 5 h.val))

/-! ### Lines -/

/-- What a mnemonic names: a command of R90, or a pseudo-command of R97. -/
inductive AsmName where
  | op (o : Op)
  | discPwm
  | brakeA
  | brakeB
  deriving DecidableEq, Repr

/-- The mnemonics of R90, the pseudo-commands of R97, and the source's API names (R97(c)). -/
def mnemonics : List (String × AsmName) :=
  [("SETBIT", .op .setbit), ("CLRBIT", .op .clrbit), ("TESTBIT", .op .testbit), ("RDREG", .op .rdreg),
   ("PINMODE", .op .pinmode), ("DWRITE", .op .dwrite), ("DREAD", .op .dread), ("PWMWR", .op .pwmwr),
   ("AREAD", .op .aread), ("INITPWM", .op .initpwm), ("INITADC", .op .initadc), ("SETUPM", .op .setupm),
   ("SETMOTOR", .op .setmotor), ("DRIVEA", .op .drivea), ("DRIVEB", .op .driveb), ("STOPALL", .op .stopall)]
  ++ [("DISCPWM", .discPwm), ("BRAKEA", .brakeA), ("BRAKEB", .brakeB)]
  ++ [("setPinMode", .op .pinmode), ("writeDigital", .op .dwrite), ("readDigital", .op .dread),
   ("writeDuty", .op .pwmwr), ("readAnalog", .op .aread), ("initPWM", .op .initpwm),
   ("initADC", .op .initadc), ("setupMotors", .op .setupm), ("setMotor", .op .setmotor),
   ("driveMotorA", .op .drivea), ("driveMotorB", .op .driveb), ("stopAllMotors", .op .stopall),
   ("setBit", .op .setbit), ("clearBit", .op .clrbit), ("testBit", .op .testbit)]

/-- A command from its opcode and the operands of the line (R96). -/
def assembleOp : Op → List (List Char) → Option Instr
  | .setbit, [h, b] => (parseHandle h).bind (fun h => (parseFin 8 b).map (fun b => .setbit h b))
  | .clrbit, [h, b] => (parseHandle h).bind (fun h => (parseFin 8 b).map (fun b => .clrbit h b))
  | .testbit, [h, b] => (parseHandle h).bind (fun h => (parseFin 8 b).map (fun b => .testbit h b))
  | .rdreg, [h] => (parseHandle h).map (fun h => .rdreg h)
  | .pinmode, [p, v] => (parseFin 20 p).bind (fun p => (parseLevel v).map (fun v => .pinmode p v))
  | .dwrite, [p, v] => (parseFin 20 p).bind (fun p => (parseLevel v).map (fun v => .dwrite p v))
  | .dread, [p] => (parseFin 20 p).map (fun p => .dread p)
  | .pwmwr, [p, d] =>
    (parseFin 20 p).bind (fun p => (parseFin 256 d).map (fun d => .pwmwr p (BitVec.ofNat 8 d.val)))
  | .aread, [k] => (parseFin 6 k).map (fun k => .aread k)
  | .initpwm, [] => some .initpwm
  | .initadc, [] => some .initadc
  | .setupm, [] => some .setupm
  | .setmotor, [m, v] => (parseMotor m).bind (fun m => (parseInt v).map (fun v => .setmotor m v))
  | .drivea, [v] => (parseInt v).map (fun v => .drivea v)
  | .driveb, [v] => (parseInt v).map (fun v => .driveb v)
  | .stopall, [] => some .stopall
  | _, _ => none

/-- A command from its name and operands; what no word spells is refused (R96). -/
def assembleNamed (c : Config) (n : AsmName) (args : List (List Char)) : Option Instr :=
  match n, args with
  | .op o, _ => (assembleOp o args).filter Instr.wf
  | .discPwm, [p] => (parseFin 20 p).bind (discPwm c)
  | .brakeA, [] => some brakeA
  | .brakeB, [] => some brakeB
  | _, _ => none

/-- One line: the mnemonic, then its operands (R96); none where the assembler refuses it. DESIGN CHOICE (log 17):
a line with no command, blank or only a comment, answers none as a refused line does. -/
def assemble (c : Config) (line : String) : Option Instr :=
  let cs := (dropComment line.toList).dropWhile isBlank
  match mnemonics.find? (fun x => x.1.toList == cs.takeWhile (fun ch => !isBlank ch)) with
  | some x => assembleNamed c x.2 (operandsOf (cs.dropWhile (fun ch => !isBlank ch)))
  | none => none

end Sys2Proof.Machine
end

