-- ==== Sys2Proof/Tests/Slice0.lean ====
section
/-! SUPPORT. Tests with expected values from spec/95_test_vectors.md and the rules' own examples, and the
witnesses of the hypotheses of the statements. -/

namespace Sys2Proof.Tests

open Sys2Proof Sys2Proof.Machine

/-! ### Helpers -/

/-- A field of the next state; none where the step stops. -/
def nextField {α : Type} (f : State → α) : Host.Outcome State Fault Refusal → Option α
  | .next t => some (f t)
  | .fault _ => none
  | .refused _ => none

/-- What a step leaves of f when the host presents one word. -/
def after {α : Type} (s : State) (w : Word) (f : State → α) : Option α :=
  nextField f (step { s with host := [w] })

/-- The response value of a step that presents one word. -/
def respOf (s : State) (w : Word) : Option (Option Response) := after s w (fun t => t.rsp)

def ok (v : Data) : Option (Option Response) := some (some ⟨false, v⟩)

def with1 (r : Reg8) (v : Byte) : State := State.reset.setReg r v

def with2 (r : Reg8) (v : Byte) (r' : Reg8) (v' : Byte) : State := (with1 r v).setReg r' v'

/-- The registers after INITPWM from reset (95_test_vectors.md 2.5). -/
def pwmOn : State :=
  { State.reset with regs := { Regs.reset with mca := #v[0xA3, 0xA3, 0xA3], mcb := #v[2, 2, 2] } }

/-- The registers after INITADC from reset (R136, example). -/
def adcOn : State := { State.reset with regs := { Regs.reset with adsel := 0x40, adcsr := 0x87 } }

/-- AREAD 5 at its wait, the converter's turn as given (R138). -/
def waiting (left : Option Nat) : State :=
  { State.reset with
    regs := { Regs.reset with adsel := 0x45, adcsr := 0xC7 }
    seq := .running (.aread 5) 2
    convLeft := left }

/-- After the refused word 0x101400 (95_test_vectors.md 2.8). -/
def faulted : State := { State.reset with fault := true, fcause := 4, fword := 0x101400 }

/-- The registers after SETUPM from reset (R152, example). -/
def setUp : State :=
  { State.reset with
    regs := { Regs.reset with
      dir := #v[0x03, 0x00, 0xF4]
      out := #v[0x02, 0x00, 0x00]
      mca := #v[0xA3, 0x23, 0xA3]
      mcb := #v[0x02, 0x02, 0x02] } }

/-! ### Well-formedness: a term for each check that it refuses (R90) -/

theorem test_wf_setbit_duty : (Instr.setbit (.reg (.duty 0)) 0).wf = false := by decide
theorem test_wf_setbit_view : (Instr.setbit (.inp .B) 0).wf = false := by decide
theorem test_wf_setbit_adsel : (Instr.setbit (.reg .adsel) 0).wf = false := by decide
theorem test_wf_clrbit_adcsr : (Instr.clrbit (.reg .adcsr) 6).wf = false := by decide
theorem test_wf_clrbit_adres : (Instr.clrbit .adres 0).wf = false := by decide
theorem test_wf_testbit_adres : (Instr.testbit .adres 0).wf = false := by decide
theorem test_wf_setmotor_high : (Instr.setmotor .A 256).wf = false := by decide
theorem test_wf_drivea_low : (Instr.drivea (-256)).wf = false := by decide
theorem test_wf_driveb_high : (Instr.driveb 256).wf = false := by decide
theorem test_wf_accepts : (Instr.setmotor .B (-255)).wf = true ∧ (Instr.driveb 255).wf = true ∧
    (Instr.testbit (.reg .adcsr) 7).wf = true ∧ (Instr.setbit (.reg (.mcb 2)) 7).wf = true := by decide

/-! ### Decoding (95_test_vectors.md 2.1, 2.2) -/

theorem test_decode_setbit : decode 0x010703#24 = .command (.setbit (.reg (.out .D)) 3) := by decide
theorem test_decode_clrbit : decode 0x020B07#24 = .command (.clrbit (.reg (.mca 1)) 7) := by decide
theorem test_decode_testbit : decode 0x030803#24 = .command (.testbit (.inp .D) 3) := by decide
theorem test_decode_rdreg : decode 0x041700#24 = .command (.rdreg .adres) := by decide
theorem test_decode_pinmode : decode 0x100D01#24 = .command (.pinmode 13 true) := by decide
theorem test_decode_dwrite : decode 0x110E01#24 = .command (.dwrite 14 true) := by decide
theorem test_decode_dread : decode 0x121300#24 = .command (.dread 19) := by decide
theorem test_decode_pwmwr : decode 0x1305C8#24 = .command (.pwmwr 5 200#8) := by decide
theorem test_decode_aread : decode 0x140500#24 = .command (.aread 5) := by decide
theorem test_decode_initpwm : decode 0x150000#24 = .command .initpwm := by decide
theorem test_decode_initadc : decode 0x160000#24 = .command .initadc := by decide
theorem test_decode_setupm : decode 0x200000#24 = .command .setupm := by decide
theorem test_decode_setmotor : decode 0x21816A#24 = .command (.setmotor .B (-150)) := by decide
theorem test_decode_drivea : decode 0x220101#24 = .command (.drivea (-255)) := by decide
theorem test_decode_driveb : decode 0x23019C#24 = .command (.driveb (-100)) := by decide
theorem test_decode_stopall : decode 0x240000#24 = .command .stopall := by decide

theorem test_decode_illegal : decode 0x000000#24 = .refused .illegalOp ∧ decode 0xFFFFFF#24 = .refused .illegalOp ∧
    decode 0x050000#24 = .refused .illegalOp ∧ decode 0x170000#24 = .refused .illegalOp ∧
    decode 0x250000#24 = .refused .illegalOp := by decide
theorem test_decode_reserved : decode 0x01FF00#24 = .refused .reservedField ∧
    decode 0x010008#24 = .refused .reservedField ∧ decode 0x150001#24 = .refused .reservedField ∧
    decode 0x100D02#24 = .refused .reservedField ∧ decode 0x141000#24 = .refused .reservedField ∧
    decode 0x218200#24 = .refused .reservedField ∧ decode 0x220200#24 = .refused .reservedField := by decide
theorem test_decode_bad_handle : decode 0x010200#24 = .refused .badHandle ∧
    decode 0x010F00#24 = .refused .badHandle ∧ decode 0x021600#24 = .refused .badHandle ∧
    decode 0x031700#24 = .refused .badHandle ∧ decode 0x041800#24 = .refused .badHandle := by decide
theorem test_decode_bad_operand : decode 0x101400#24 = .refused .badPin ∧ decode 0x1314FF#24 = .refused .badPin ∧
    decode 0x140600#24 = .refused .badChannel ∧ decode 0x230100#24 = .refused .badSpeed ∧
    decode 0x218100#24 = .refused .badSpeed := by decide

theorem test_encode_drivea : encode (.drivea (-200)) = 0x220138#24 := by decide
theorem test_encode_pwmwr : encode (.pwmwr 13 77#8) = 0x130D4D#24 := by decide
theorem test_decodeTableWord : decodeTableWord 24 0x130D4D = some (.pwmwr 13 77#8) ∧
    decodeTableWord 24 0x131400 = none := by decide
theorem test_withFetchWord :
    nextField (fun t => t.reg .adcsr) (step (State.reset.withFetchWord 24 0x160000)) = some 0x87#8 := by decide

/-! ### The assembler (R96, R97) -/

theorem test_assemble_setbit :
    assemble Config.cfg0 "SETBIT OUT_D, 3 ; V 2.1" = some (.setbit (.reg (.out .D)) 3) := by decide
theorem test_assemble_discpwm : assemble Config.cfg0 "DISCPWM 9" = some (.clrbit (.reg (.mca 1)) 7) ∧
    assemble Config.cfg0 "DISCPWM 13" = none := by decide
theorem test_assemble_brake : assemble Config.cfg0 "BRAKEB" = some (.driveb 0) ∧
    assemble Config.cfg0 "setMotor B, -150" = some (.setmotor .B (-150)) := by decide
theorem test_assemble_speed_refused : assemble Config.cfg0 "DRIVEA 256" = none := by decide
theorem test_assemble_level_form : assemble Config.cfg0 "PINMODE 13, 0x1" = some (.pinmode 13 true) ∧
    assemble Config.cfg0 " ; no command" = none := by decide

/-! ### The primitives (95_test_vectors.md 2.3) -/

theorem test_setbit : after (with1 (.out .D) 0x94) 0x010703#24 (fun t => t.reg (.out .D)) = some 0x9C#8 := by decide
theorem test_setbit_unmapped :
    after State.reset 0x010307#24 (fun t => t.reg (.dir .C)) = some 0x80#8 := by decide
theorem test_clrbit : after (with1 (.mca 1) 0xA3) 0x020B07#24 (fun t => t.reg (.mca 1)) = some 0x23#8 := by decide
theorem test_clrbit_clear :
    after State.reset 0x020707#24 (fun t => t.reg (.out .D)) = some 0x00#8 := by decide
theorem test_testbit_view : respOf (with2 (.dir .D) 0x08 (.out .D) 0x08) 0x030803#24 = ok 0x0001#16 := by decide
theorem test_testbit_busy : respOf (with1 .adcsr 0x87) 0x031606#24 = ok 0x0000#16 := by decide
theorem test_rdreg : respOf (with1 (.mca 1) 0x23) 0x040B00#24 = ok 0x0023#16 := by decide
theorem test_rdreg_adres :
    respOf { State.reset with regs := { Regs.reset with adres := 0x2A7 } } 0x041700#24 = ok 0x02A7#16 := by decide

/-! ### GPIO (95_test_vectors.md 2.4) -/

theorem test_pinmode : after State.reset 0x100D01#24 (fun t => (t.reg (.dir .B), padDrive t 13)) =
    some (0x20#8, .L) := by decide
theorem test_pinmode_input : after (with1 (.dir .B) 0x20) 0x100D00#24 (fun t => (t.reg (.dir .B), padDrive t 13)) =
    some (0x00#8, .Z) := by decide
theorem test_dwrite_input : after State.reset 0x110D01#24 (fun t => (t.reg (.out .B), padDrive t 13)) =
    some (0x20#8, .Z) := by decide
theorem test_dwrite_siblings : after (with2 (.dir .B) 0x3F (.out .B) 0x3F) 0x110800#24
    (fun t => (t.reg (.out .B), padDrive t 8, padDrive t 9)) = some (0x3E#8, .L, .H) := by decide
theorem test_dread_high : respOf (with2 (.dir .C) 0x01 (.out .C) 0x01) 0x120E00#24 = ok 0x0001#16 := by decide
theorem test_dread_low : respOf (with1 (.dir .B) 0x20) 0x120D00#24 = ok 0x0000#16 := by decide

/-! ### PWM (95_test_vectors.md 2.5, V3) -/

theorem test_initpwm : after (with1 (.mca 0) 0xE3) 0x150000#24 (fun t => (t.regs.mca, t.regs.mcb)) =
    some (#v[0xA3#8, 0xA3#8, 0xA3#8], #v[0x02#8, 0x02#8, 0x02#8]) := by decide
theorem test_pwmwr : after (pwmOn.setReg (.dir .D) 0x20) 0x1305C8#24 (fun t => (t.reg (.duty 1), padDrive t 5)) =
    some (0xC8#8, .PWM 0xC8#8) := by decide
theorem test_pwmwr_no_channel : after setUp 0x130D4D#24 (fun t => (t.regs, t.rsp)) =
    some (setUp.regs, some ⟨false, 0x0000#16⟩) := by decide
theorem test_pad_x_clock : padDrive (with2 (.mca 0) 0xA3 (.dir .D) 0x40) 6 = .X := by decide
theorem test_pad_x_mode : padDrive ((with2 (.mca 0) 0xA2 (.dir .D) 0x40).setReg (.mcb 0) 0x02) 6 = .X := by decide

/-! ### The converter (95_test_vectors.md 2.6) -/

theorem test_initadc : after State.reset 0x160000#24 (fun t => (t.reg .adsel, t.reg .adcsr)) =
    some (0x40#8, 0x87#8) := by decide
theorem test_initadc_keeps_channel : after (adcOn.setReg .adsel 0x45) 0x160000#24
    (fun t => (t.reg .adsel, t.reg .adcsr)) = some (0x45#8, 0x87#8) := by decide
theorem test_aread_waits : after adcOn 0x140300#24 (fun t => (t.reg .adsel, t.reg .adcsr, t.seq, t.rsp)) =
    some (0x43#8, 0xC7#8, .running (.aread 3) 2, none) := by decide
theorem test_aread_overwrites :
    after (adcOn.setReg .adsel 0x45) 0x140200#24 (fun t => t.reg .adsel) = some 0x42#8 := by decide
theorem test_adcComplete : nextField (fun t => (t.reg .adcsr, t.reg .adsel)) (step (waiting (some 0))) =
    some (0x87#8, 0x45#8) := by decide

/-! ### The motors (95_test_vectors.md 2.7, V4, V5) -/

theorem test_setupm : after State.reset 0x200000#24 (fun t => t.regs) = some setUp.regs := by decide
theorem test_setupm_pads : after State.reset 0x200000#24 (fun t => [2, 4, 5, 6, 7, 8, 9, 13].map (padDrive t)) =
    some [.L, .L, .PWM 0, .PWM 0, .L, .L, .H, .Z] := by decide
theorem test_setmotor : after setUp 0x2100C8#24 (fun t => (t.reg (.out .D), t.reg (.duty 1))) =
    some (0x04#8, 0xC8#8) := by decide
theorem test_setmotor_b : after setUp 0x21816A#24 (fun t => (t.reg (.out .D), t.reg (.out .B), t.reg (.duty 0))) =
    some (0x00#8, 0x03#8, 0x96#8) := by decide
theorem test_drivea : after (setUp.setReg (.out .D) 0x94) 0x220101#24
    (fun t => (t.reg (.out .D), t.reg (.duty 1))) = some (0x90#8, 0xFF#8) := by decide
theorem test_driveb : after ((setUp.setReg (.out .D) 0x94).setReg (.out .B) 0x03) 0x230064#24
    (fun t => (t.reg (.out .D), t.reg (.out .B), t.reg (.duty 0))) = some (0x94#8, 0x02#8, 0x64#8) := by decide
theorem test_stopall : after (setUp.setReg (.duty 1) 0xC8) 0x240000#24
    (fun t => (t.reg (.out .D), t.reg (.out .B), t.reg (.duty 1))) = some (0x94#8, 0x03#8, 0x00#8) := by decide
theorem test_enc : enc (-255) = ⟨false, true, 0xFF#8⟩ ∧ enc (-1) = ⟨false, true, 0x01#8⟩ ∧
    enc 0 = ⟨true, true, 0x00#8⟩ ∧ enc 1 = ⟨true, false, 0x01#8⟩ ∧ enc 255 = ⟨true, false, 0xFF#8⟩ := by decide
theorem test_setupm_index_13 : nextField (fun t => padDrive t 9) (step
    { setUp with regs := { setUp.regs with mca := #v[0xA3, 0xA3, 0xA3], out := #v[0, 0, 0] },
                 seq := .running .setupm 13 }) = some .L := by decide

/-! ### The fault latch (95_test_vectors.md 2.8) -/

theorem test_fault_entry :
    after State.reset 0x101400#24 (fun t => (t.fault, t.fcause, t.fword, t.rsp, t.regs)) =
      some (true, 4#3, 0x101400#24, some ⟨true, 0x0000#16⟩, Regs.reset) := by decide
theorem test_fault_keeps_first : after faulted 0x000000#24 (fun t => (t.fcause, t.fword)) =
    some (4#3, 0x101400#24) := by decide
theorem test_fault_refuses_legal : after faulted 0x110D01#24 (fun t => (t.reg (.out .B), t.rsp)) =
    some (0x00#8, some ⟨true, 0x0000#16⟩) := by decide

/-! ### Witnesses of hypotheses

Each shows states and operands that meet the hypotheses of the statement it names, clause by clause. -/

theorem witness_cfgOk : Config.cfg0.Ok := by decide

theorem witness_PadDriveIsTheMultiplexer :
    pinAt State.reset.cfg 5 = (.D, 5) ∧ State.reset.bit (.dir .D) 5 = false ∧
    ((with1 (.dir .B) 0x20).bit (.dir .B) 5 = true ∧ channelOf Config.cfg0 13 = none) ∧
    (channelOf Config.cfg0 5 = some 1 ∧ (0 : Timer).val = (1 : Channel).val / 2 ∧
      (5 : BitIx).val = 7 - 2 * ((1 : Channel).val % 2)) ∧
    ((with1 (.dir .D) 0x20).bit (.dir .D) 5 = true ∧ (with1 (.dir .D) 0x20).bit (.mca 0) 5 = false) ∧
    ((pwmOn.setReg (.dir .D) 0x20).bit (.mca 0) 5 = true ∧
      (pwmOn.reg (.mca 0)).extractLsb' 0 2 = 0b11#2 ∧ (pwmOn.reg (.mcb 0)).extractLsb' 0 3 ≠ 0#3) ∧
    ((with2 (.dir .D) 0x20 (.mca 0) 0x23).bit (.mca 0) 5 = true ∧
      (with1 (.mca 0) 0x23).reg (.mcb 0) = 0x00#8) := by decide

theorem witness_InputBitReadsThePad :
    (∀ p, pinAt Config.cfg0 p ≠ (.B, 6)) ∧ pinAt Config.cfg0 13 = (.B, 5) ∧
    padDrive (with2 (.dir .B) 0x20 (.out .B) 0x20) 13 = .H ∧ padDrive (with1 (.dir .B) 0x20) 13 = .L ∧
    (padDrive State.reset 13 ≠ .H ∧ padDrive State.reset 13 ≠ .L) := by decide

theorem witness_DecodeOfEncode : (Instr.setmotor .A (-255)).wf = true ∧ (Instr.drivea 255).wf = true ∧
    (Instr.setbit (.reg (.mcb 2)) 7).wf = true ∧ (Instr.testbit (.reg .adcsr) 0).wf = true := by decide

theorem witness_EncodeOfDecode : decode 0x101301#24 = .command (.pinmode 19 true) := by decide

theorem witness_RefusedWordsAndCauses :
    opField 0x010018#24 = Op.setbit.code ∧ 0x011800#24 &&& Op.setbit.fmask = Op.setbit.fmatch ∧
    aLow5 0x010200#24 ∉ bitWritableNumbers ∧ 0x17 ≤ (aLow5 0x031700#24).toNat ∧
    0x18 ≤ (aLow5 0x041800#24).toNat ∧ 20 ≤ (aLow5 0x101400#24).toNat ∧ 6 ≤ (aLow4 0x140600#24).toNat ∧
    speedField 0x210100#24 = 0x100#9 := by decide

theorem witness_EveryCommandAnswers :
    (Instr.aread 5).wf = true ∧ (Instr.setbit .adres 7).wf = false := by decide

theorem witness_StepRunsDecodedCommand :
    ({ State.reset with host := [0x160000#24] } : State).seq = .idle ∧ State.reset.fault = false ∧
    decode 0x160000#24 = .command .initadc ∧ State.reset.grain = .command ∧
    ({ State.reset with grain := .micro } : State).grain = .micro := by decide

theorem witness_FaultEntryLatchesTheFirstWord :
    ({ faulted with host := [0x000000#24] } : State).seq = .idle ∧ decode 0x000000#24 = .refused .illegalOp ∧
    faulted.fault = true ∧ State.reset.fault = false := by decide

/-- The invariant in a state after a refused word. -/
theorem inv_faulted : Inv faulted where
  reservedZero := by decide
  chselLegal := by decide
  refcfgLegal := by decide
  adcInitTogether := by decide
  busyWaits := fun h => absurd h (by decide)
  runningLegal := fun _ _ h => nomatch h
  chselHeld := fun _ _ h => nomatch h
  faultIdle := fun _ => rfl
  latch := .inr ⟨rfl, .badPin, by decide, by decide⟩

/-- The invariant in a waiting AREAD. -/
theorem inv_waiting : Inv (waiting (some 0)) where
  reservedZero := by decide
  chselLegal := by decide
  refcfgLegal := by decide
  adcInitTogether := by decide
  busyWaits := fun _ => ⟨5, rfl⟩
  runningLegal := fun i k h => by cases h; decide
  chselHeld := fun ch k h _ => by cases h; decide
  faultIdle := fun h => absurd h (by decide)
  latch := by left; decide

/-- The invariant in an idle block after INITADC. -/
theorem inv_adcOn : Inv adcOn where
  reservedZero := by decide
  chselLegal := by decide
  refcfgLegal := by decide
  adcInitTogether := by decide
  busyWaits := fun h => absurd h (by decide)
  runningLegal := fun _ _ h => nomatch h
  chselHeld := fun _ _ h => nomatch h
  faultIdle := fun h => absurd h (by decide)
  latch := by left; decide

theorem witness_FaultedBlockIsFailStop_word :
    ({ faulted with host := [0x110D01#24] } : State).seq = .idle ∧ faulted.fault = true := by decide

theorem witness_FaultedBlockIsFailStop_run : Inv faulted ∧ faulted.fault = true ∧ ∃ t, runSteps 3 faulted = .next t :=
  ⟨inv_faulted, rfl, _, rfl⟩

theorem witness_IdleStepChangesNothing : State.reset.seq = .idle ∧ State.reset.host = [] := by decide

theorem witness_OneResponsePerRunningCommand :
    ∃ s t : State, s.seq = .running .initadc 1 ∧ step s = .next t ∧ t.rsp = some ⟨false, 0x0000#16⟩ :=
  ⟨{ State.reset with seq := .running .initadc 1 }, _, rfl, rfl, rfl⟩

theorem witness_ConfigurationNeverChanges : ∃ t, runSteps 2 adcOn = .next t := ⟨_, rfl⟩

theorem witness_EveryStepKeepsTheInvariant : Inv (waiting (some 0)) ∧ ∃ t, step (waiting (some 0)) = .next t :=
  ⟨inv_waiting, _, rfl⟩

theorem witness_NoStopFromTheInvariant : Inv (waiting (some 0)) ∧ Inv faulted ∧ Inv adcOn :=
  ⟨inv_waiting, inv_faulted, inv_adcOn⟩

theorem witness_MicroStepsReachTheCommandsState : Instr.setupm.wf = true ∧ busy State.reset = false ∧
    (∀ k, Instr.setupm ≠ .aread k) := ⟨rfl, by decide, fun _ h => nomatch h⟩

/-- The AREAD clause: an enabled converter with no conversion in flight. -/
theorem witness_MicroStepsReachTheCommandsState_aread : (Instr.aread 5).wf = true ∧ busy adcOn = false ∧
    ∃ k, Instr.aread 5 = .aread k := ⟨rfl, by decide, 5, rfl⟩

theorem witness_MicroOperationFrame : (0xF0#8).getLsbD (3 : BitIx).val = false ∧ MicroOp.skip ≠ .trigger ∧
    (∀ h b, MicroOp.skip ≠ .regTst h b) ∧ (∀ h, MicroOp.skip ≠ .regRead h) :=
  ⟨by decide, by decide, by simp, by simp⟩

/-- A converter's step that changes ADRES, whatever is drawn: it is taken from the complement of the draw. -/
theorem witness_ResultChangesOnlyWithCompletion : ∃ s t, step s = .next t ∧ t.regs.adres ≠ s.regs.adres := by
  refine ⟨{ waiting (some 0) with
    regs := { (waiting (some 0)).regs with adres := ~~~ (Config.conversion 0 5#4) } }, _, rfl, ?_⟩
  show Config.conversion 0 5#4 ≠ ~~~ (Config.conversion 0 5#4)
  generalize Config.conversion 0 5#4 = x
  intro h
  have h0 := congrArg (fun v : BitVec 10 => v.getLsbD 0) h
  simp at h0

theorem witness_ConverterStaysEnabled : adcEnabled adcOn = true ∧ ∃ t, runSteps 2 adcOn = .next t :=
  ⟨by decide, _, rfl⟩

theorem witness_PortRegistersChangeBitByBit :
    MicroOp.regSet (.out .B) 1 ∈ opsOf Config.cfg0 .setupm := by decide

theorem witness_RefusedUnder : opField 0x010008#24 = 0x01#8 ∧ 0x010008#24 &&& 0x00E0F8#24 ≠ 0#24 ∧
    0x010F00#24 &&& 0x00E0F8#24 = 0#24 ∧ aLow5 0x010F00#24 ∉ bitWritableNumbers ∧
    0x031700#24 &&& 0x00E0F8#24 = 0#24 ∧ 0x17 ≤ (aLow5 0x031700#24).toNat ∧
    0x041800#24 &&& 0x00E0FF#24 = 0#24 ∧ 0x101400#24 &&& 0x00E0FE#24 = 0#24 ∧
    0x121400#24 &&& 0x00E0FF#24 = 0#24 ∧ 0x131400#24 &&& 0x00E000#24 = 0#24 ∧
    0x140600#24 &&& 0x00F0FF#24 = 0#24 ∧ 0x210100#24 &&& 0x007E00#24 = 0#24 ∧
    0x220100#24 &&& 0x00FE00#24 = 0#24 ∧ speedField 0x220100#24 = 0x100#9 := by decide

theorem witness_noOperandWords : opField 0x150001#24 = 0x15#8 ∧ 0x150001#24 ≠ 0x150000#24 ∧
    opField 0x160100#24 = 0x16#8 ∧ opField 0x200100#24 = 0x20#8 ∧ opField 0x240001#24 = 0x24#8 := by decide

theorem witness_SetbitSetsOneBit : (Handle.reg (.dir .B)).num ∈ bitWritableNumbers ∧
    (Handle.reg (.mcb 2)).num ∈ bitWritableNumbers := by decide

theorem witness_ClrbitClearsOneBit : (Handle.reg (.out .D)).num ∈ bitWritableNumbers ∧
    (Handle.reg (.mca 0)).num ∈ bitWritableNumbers := by decide

theorem witness_PrimitiveLaws : (Handle.reg (.dir .B)).bitWritable = true ∧
    (Handle.reg (.mcb 2)).bitWritable = true ∧ ((Reg8.dir .B, (0 : BitIx)) ≠ (Reg8.dir .B, (7 : BitIx))) := by decide

theorem witness_TestbitReturnsOneBit : Inv adcOn ∧ adcOn.seq = .idle := ⟨inv_adcOn, rfl⟩

theorem witness_pins : pinAt Config.cfg0 0 = (.D, 0) ∧ pinAt Config.cfg0 19 = (.C, 5) ∧
    padDrive (with2 (.dir .D) 0x01 (.out .D) 0x01) 0 = .H ∧ padDrive (with1 (.dir .D) 0x01) 0 = .L ∧
    padDrive State.reset 0 = .Z := by decide

theorem witness_NoCrossPinInterference : Config.cfg0.Ok ∧ (4 : Pin) ≠ 5 := ⟨witness_cfgOk, by decide⟩

theorem witness_WriteThenRead : ∀ ch, channelOf Config.cfg0 5 = some ch → connected State.reset ch = false := by
  decide

theorem witness_channels : channelOf Config.cfg0 5 = some 1 ∧ channelOf Config.cfg0 3 = some 5 ∧
    channelOf Config.cfg0 0 = none ∧ channelOf Config.cfg0 19 = none := by decide

theorem witness_DisconnectReturnsThePin : channelOf Config.cfg0 9 = some 2 ∧
    setUp.bit (dirOf setUp.cfg 9) (bitOf setUp.cfg 9) = true ∧ (3 : Channel) ≠ 2 := by decide

theorem witness_InitadcWritesTheFields : 3 ≤ (3 : BitIx).val ∧ (6 : BitIx).val ≤ 6 := by decide

theorem witness_AreadPollsBusy :
    ((waiting (some 4)).seq = .running (.aread 5) 2 ∧ busy (waiting (some 4)) = true ∧
      (waiting (some 4)).convLeft ≠ some 0 ∧ (waiting none).convLeft ≠ some 0) ∧
    busy { adcOn with seq := .running (.aread 0) 2 } = false ∧
    busy { adcOn with seq := .running (.aread 0) 3 } = false := by decide

theorem witness_AdcCompleteIsOneStep : (waiting (some 0)).seq = .running (.aread 5) 2 ∧
    adcEnabled (waiting (some 0)) = true ∧ busy (waiting (some 0)) = true ∧
    (waiting (some 0)).convLeft = some 0 := by decide

theorem witness_AreadCompletes : ∀ n, (waiting (some n)).seq = .running (.aread 5) 2 ∧
    adcEnabled (waiting (some n)) = true ∧ busy (waiting (some n)) = true ∧
    (waiting (some n)).convLeft = some n :=
  fun _ => ⟨rfl, (by decide : adcEnabled (waiting none) = true), (by decide : busy (waiting none) = true), rfl⟩

theorem witness_AreadReturnsAndLeavesTheRest : adcEnabled adcOn = true ∧ busy adcOn = false := by decide

theorem witness_AreadBeforeInitadcIsStuck : adcEnabled State.reset = false := by decide

theorem witness_NeverCompletingConversionHangs : (waiting none).seq = .running (.aread 5) 2 ∧
    busy (waiting none) = true ∧ (waiting none).convLeft = none ∧ (waiting none).rsp = none := by decide

theorem witness_speeds : speedOk 255 = true ∧ speedOk (-255) = true ∧ speedOk 0 = true ∧ speedOk 1 = true ∧
    speedOk (-1) = true := by decide

theorem witness_motors : channelOf Config.cfg0 (motorPins Config.cfg0 .A).pwm = some 1 ∧
    channelOf Config.cfg0 (motorPins Config.cfg0 .B).pwm = some 0 ∧ (Motor.A ≠ Motor.B) ∧
    channelOf Config.cfg0 2 = none ∧ channelOf Config.cfg0 Config.cfg0.pinEn = some 2 := by decide

/-- A running SETMOTOR A whose motor turns forward, given a reverse speed, and the other way round. -/
theorem witness_DirectionChangePassesThroughBothEqual :
    (with1 (.out .D) 0x04).bit (outOf Config.cfg0 2) (bitOf Config.cfg0 2) = decide ((-200 : Int) < 0) ∧
    (with1 (.out .D) 0x04).bit (outOf Config.cfg0 4) (bitOf Config.cfg0 4) = decide ((-200 : Int) > 0) ∧
    (with1 (.out .D) 0x10).bit (outOf Config.cfg0 2) (bitOf Config.cfg0 2) = decide ((200 : Int) < 0) ∧
    (with1 (.out .D) 0x10).bit (outOf Config.cfg0 4) (bitOf Config.cfg0 4) = decide ((200 : Int) > 0) ∧
    busy (with1 (.out .D) 0x04) = false := by decide

theorem witness_EnablePinWindowOfSetupm : busy setUp = false ∧ channelOf setUp.cfg setUp.cfg.pinEn = some 2 ∧
    clockSelect setUp 1 ≠ 0#3 ∧ clockSelect State.reset 1 = 0#3 ∧
    9 + 2 * (timerOf 2).val ≤ 13 := by decide

end Sys2Proof.Tests
end

namespace Sys2Proof

/-! ### What the decoder answers (R91) -/

/-- A handle operand is decoded to a handle the opcode allows. -/
theorem exists_of_decodeHandle {n : BitVec 5} {ok : Handle → Bool} {f : Handle → Instr} {i : Instr}
    (h : decodeHandle n ok f = .command i) : ∃ x, Handle.ofNum n = some x ∧ ok x = true ∧ f x = i := by
  rw [decodeHandle] at h
  split at h
  · rename_i x hx
    split at h
    · rename_i hok
      exact ⟨x, hx, hok, Decoded.command.inj h⟩
    · cases h
  · cases h

/-- A pin operand is decoded to the pin of its number. -/
theorem exists_of_decodePin {n : BitVec 5} {f : Pin → Instr} {i : Instr}
    (h : decodePin n f = .command i) : ∃ p : Pin, p.val = n.toNat ∧ f p = i := by
  rw [decodePin] at h
  split at h
  · exact ⟨_, rfl, Decoded.command.inj h⟩
  · cases h

/-- A channel operand is decoded to the channel of its number. -/
theorem exists_of_decodeChannel {n : BitVec 4} {f : AnaChannel → Instr} {i : Instr}
    (h : decodeChannel n f = .command i) : ∃ k : AnaChannel, k.val = n.toNat ∧ f k = i := by
  rw [decodeChannel] at h
  split at h
  · exact ⟨_, rfl, Decoded.command.inj h⟩
  · cases h

/-- Every 9-bit pattern but 0x100 is a legal speed (R88). -/
theorem speedOk_toInt {v : BitVec 9} (h : v ≠ 0x100#9) : speedOk v.toInt = true := by
  have hmin : v.toInt ≠ -256 := fun e => h (BitVec.eq_of_toInt_eq e)
  have hlo := BitVec.le_toInt v
  have hhi := BitVec.toInt_lt (x := v)
  norm_num at hlo hhi
  exact decide_eq_true ⟨by omega, by omega⟩

/-- A speed operand is decoded to the legal speed of its pattern. -/
theorem exists_of_decodeSpeed {v : BitVec 9} {f : Int → Instr} {i : Instr}
    (h : decodeSpeed v f = .command i) : speedOk v.toInt = true ∧ f v.toInt = i := by
  rw [decodeSpeed] at h
  split at h
  · cases h
  · rename_i hv
    exact ⟨speedOk_toInt hv, Decoded.command.inj h⟩

/-- A word that decodes to a command decodes by the operand check of some opcode. -/
theorem decodeOperands_of_decode {w : Word} {i : Instr} (h : decode w = .command i) :
    ∃ o : Op, opField w = o.code ∧ w &&& o.fmask = o.fmatch ∧ decodeOperands w o = .command i := by
  rw [decode] at h
  split at h
  · cases h
  · rename_i o ho
    split at h
    · rename_i hm
      exact ⟨o, (Op.code_of_ofByte ho).symm, hm, h⟩
    · cases h

/-- The operand check answers well-formed commands only (R91, R93). -/
theorem wf_of_decodeOperands {w : Word} {o : Op} {i : Instr} (h : decodeOperands w o = .command i) :
    i.wf = true := by
  cases o <;> rw [decodeOperands] at h
  case setbit | clrbit | testbit | rdreg =>
    obtain ⟨x, -, hok, rfl⟩ := exists_of_decodeHandle h
    exact hok
  case pinmode | dwrite | dread | pwmwr => obtain ⟨p, -, rfl⟩ := exists_of_decodePin h; rfl
  case aread => obtain ⟨k, -, rfl⟩ := exists_of_decodeChannel h; rfl
  case setmotor | drivea | driveb =>
    obtain ⟨hv, rfl⟩ := exists_of_decodeSpeed h
    exact hv
  case initpwm | initadc | setupm | stopall => cases h; rfl

/-- A decoded command is well-formed (R91). -/
theorem wf_of_decode {w : Word} {i : Instr} (h : decode w = .command i) : i.wf = true := by
  obtain ⟨o, -, -, ho⟩ := decodeOperands_of_decode h
  exact wf_of_decodeOperands ho

end Sys2Proof

namespace Sys2Proof.Machine

/-! ### The entries of the lists that are not plain (R136, R138) -/

/-- An entry of a command's list is plain, or one of AREAD's three or INITADC's two. -/
theorem mem_opsOf_cases {c : Config} {i : Instr} {op : MicroOp} (h : op ∈ opsOf c i) :
    op.Plain ∨ (∃ k, op = .regFld .adsel 0x0F#8 (chselValue k)) ∨ op = .trigger ∨ op = .pollBusy ∨
      op = .regFld .adsel 0xF0#8 (refInitValue c) ∨ op = .regFld .adcsr 0x87#8 (divInitValue c) := by
  by_cases haread : ∃ k, i = .aread k
  · obtain ⟨k, rfl⟩ := haread
    simp only [opsOf, areadOps, List.mem_cons, List.not_mem_nil, or_false] at h
    rcases h with rfl | rfl | rfl | rfl
    · exact .inr (.inl ⟨k, rfl⟩)
    · simp
    · simp
    · exact .inl trivial
  · by_cases hinit : i = .initadc
    · subst hinit
      simp only [opsOf, initadcOps, List.mem_cons, List.not_mem_nil, or_false] at h
      rcases h with rfl | rfl <;> simp
    · exact .inl (opsOf_plain h (fun k e => haread ⟨k, e⟩) hinit)

/-- A whole-register write is of a mode-control or duty register (R22, R23). -/
theorem regWr_target {c : Config} {i : Instr} {r : Reg8} {v : Byte} (h : .regWr r v ∈ opsOf c i) :
    (∃ t, r = .mca t) ∨ (∃ t, r = .mcb t) ∨ ∃ ch, r = .duty ch := by
  rcases mem_opsOf_cases h with hp | ⟨k, hk⟩ | hk | hk | hk | hk
  · exact hp
  all_goals cases hk

/-- A field write is of a register of the converter (R22, R23). -/
theorem regFld_target {c : Config} {i : Instr} {r : Reg8} {m v : Byte} (h : .regFld r m v ∈ opsOf c i) :
    r = .adsel ∨ r = .adcsr := by
  rcases mem_opsOf_cases h with hp | ⟨k, hk⟩ | hk | hk | hk | hk
  · exact hp.elim
  · cases hk; exact .inl rfl
  · cases hk
  · cases hk
  · cases hk; exact .inl rfl
  · cases hk; exact .inr rfl

/-- Settles O22: whole writes go to mode-control and duty registers, field writes to the converter's. -/
theorem portRegistersChangeBitByBit : Obligations.PortRegistersChangeBitByBit := by
  intro c i op g hop m v
  refine ⟨?_, ?_, ?_, ?_⟩ <;> rintro rfl
  · simpa using regWr_target hop
  · simpa using regWr_target hop
  · simpa using regFld_target hop
  · simpa using regFld_target hop

/-! ### What every step keeps -/

/-- What depends on the configuration and the registers only, and every micro-operation of a command keeps,
the command run whole keeps. -/
theorem exec_keeps {P : State → Prop} {i : Instr} {s t : State}
    (hregs : ∀ {s t : State}, P s → t.cfg = s.cfg → t.regs = s.regs → P t)
    (hop : ∀ {op} {s : State}, op ∈ opsOf s.cfg i → P s → P (microState op s))
    (h : exec i s = .next t) (hs : P s) : P t := by
  rw [exec_eq] at h
  split at h
  · cases h
    refine (runOps_keeps (P := fun u => u.cfg = s.cfg ∧ P u) ?_ ?_ ?_ ⟨rfl, hs⟩).2
    · rintro op hmem u ⟨hc, hu⟩
      exact ⟨by simp [hc], hop (hc ▸ hmem) hu⟩
    · rintro v u ⟨hc, hu⟩
      exact ⟨hc, hregs hu rfl rfl⟩
    · rintro k u ⟨hc, hu⟩
      exact ⟨hc, hregs hu rfl rfl⟩
  · cases h

/-- What depends on the configuration and the registers only, and every micro-operation of every command
keeps, a step keeps unless it is the converter's. -/
theorem step_keeps_or_adcComplete {P : State → Prop} {s t : State}
    (hregs : ∀ {s t : State}, P s → t.cfg = s.cfg → t.regs = s.regs → P t)
    (hop : ∀ {i op} {s : State}, op ∈ opsOf s.cfg i → P s → P (microState op s))
    (h : step s = .next t) (hs : P s) :
    (adcCompleteEnabled s = true ∧ t = adcComplete s) ∨ P t := by
  cases hseq : s.seq with
  | idle =>
    right
    rw [step_idle hseq] at h
    rcases portStep_cases h with ⟨-, rfl⟩ | ⟨w, rest, -, ⟨-, rfl⟩ | ⟨-, c, -, rfl⟩ | ⟨-, i, -, -, rfl⟩ |
      ⟨-, i, -, -, he⟩⟩
    iterate 4 exact hregs hs rfl rfl
    exact exec_keeps hregs hop he (hregs hs rfl rfl)
  | running i k =>
    rw [step_running hseq] at h
    rcases runningStep_cases h with ⟨hen, -, rfl⟩ | ⟨left, h, -⟩
    · exact .inl ⟨hen, rfl⟩
    · right
      have hleft : P { s with convLeft := left } := hregs hs rfl rfl
      obtain ⟨op, hget, ⟨-, -, rfl⟩ | ⟨-, -, rfl⟩ | ⟨-, -, rfl⟩⟩ := seqStep_cases h
      · exact hregs hs rfl rfl
      · exact hregs (hop (List.mem_of_getElem? hget) hleft) rfl rfl
      · exact hregs (hop (List.mem_of_getElem? hget) hleft) rfl rfl

/-- What every step keeps, every run keeps. -/
theorem runSteps_keeps {P : State → Prop} (hstep : ∀ {s t : State}, step s = .next t → P s → P t)
    {n : Nat} {s t : State} (h : runSteps n s = .next t) (hs : P s) : P t := by
  induction n generalizing s with
  | zero => cases h; exact hs
  | succ n ih =>
    rw [runSteps] at h
    split at h
    · rename_i u hu
      exact ih h (hstep hu hs)
    · cases h
    · cases h

/-- No step writes the configuration (R21). -/
theorem step_cfg {s t : State} (h : step s = .next t) : t.cfg = s.cfg := by
  rcases step_keeps_or_adcComplete (P := fun u => u.cfg = s.cfg) (fun hs hc _ => hc.trans hs)
    (fun _ hs => by simpa using hs) h rfl with ⟨-, rfl⟩ | hc
  · rfl
  · exact hc

/-- Settles O14, by induction on the number of steps. -/
theorem configurationNeverChanges : Obligations.ConfigurationNeverChanges := fun _ s _ h =>
  runSteps_keeps (P := fun u => u.cfg = s.cfg) (fun hu hs => (step_cfg hu).trans hs) h rfl

/-- Settles O20: every other step keeps ADRES, and the converter's clears BUSY. -/
theorem resultChangesOnlyWithCompletion : Obligations.ResultChangesOnlyWithCompletion := by
  intro s t h hne
  rcases step_keeps_or_adcComplete (P := fun u => u.regs.adres = s.regs.adres)
    (fun hs _ hr => (congrArg Regs.adres hr).trans hs) (fun _ hs => by simpa using hs) h rfl with
    ⟨hen, rfl⟩ | heq
  · rw [adcCompleteEnabled, Bool.and_eq_true] at hen
    exact ⟨hen.1, hen.2, busy_adcComplete s, adcComplete_adres s⟩
  · exact absurd heq hne

end Sys2Proof.Machine

namespace Sys2Proof.Machine

/-! ### The invariant in three parts: the converter's registers, SEQ with BUSY, and the latch (R35) -/

/-- What the invariant says of ADSEL (R35(b), (c)). -/
def AdselLegal (c : Config) (v : Byte) : Prop :=
  (v.extractLsb' 0 4).toNat < 6 ∧ (v.extractLsb' 4 4 = 0#4 ∨ v.extractLsb' 4 4 = c.adcRefInit)

/-- What the invariant says of ADCSR by itself (R35(a), (d)). -/
def AdcsrLegal (c : Config) (v : Byte) : Prop :=
  v.extractLsb' 3 3 = 0#3 ∧ ((v.getLsbD 7 = false ∧ v.extractLsb' 0 3 = 0#3) ∨
    (v.getLsbD 7 = true ∧ v.extractLsb' 0 3 = c.adcDivInit))

/-- The part of the invariant that speaks of the converter's registers only. -/
def ConverterLegal (s : State) : Prop :=
  AdselLegal s.cfg (s.reg .adsel) ∧ AdcsrLegal s.cfg (s.reg .adcsr)

/-- The part of the invariant that speaks of the fault latch only (R32, R174). -/
def LatchLegal (s : State) : Prop :=
  (s.fault = false ∧ s.fcause = 0#3 ∧ s.fword = 0#24) ∨
    (s.fault = true ∧ ∃ c, decode s.fword = .refused c ∧ s.fcause = causeCode c)

theorem Inv.converterLegal {s : State} (h : Inv s) : ConverterLegal s :=
  ⟨⟨h.chselLegal, h.refcfgLegal⟩, h.reservedZero, h.adcInitTogether⟩

theorem LatchLegal.congr {s t : State} (h : LatchLegal s) (hf : t.fault = s.fault)
    (hc : t.fcause = s.fcause) (hw : t.fword = s.fword) : LatchLegal t := by
  rw [LatchLegal, hf, hc, hw]; exact h

theorem Inv.busy_of_idle {s : State} (h : Inv s) (hseq : s.seq = .idle) : busy s = false := by
  refine Bool.eq_false_iff.2 fun hb => ?_
  obtain ⟨k, hk⟩ := h.busyWaits hb
  rw [hseq] at hk
  cases hk

theorem Inv.fault_of_running {s : State} (h : Inv s) {i : Instr} {k : Nat} (hseq : s.seq = .running i k) :
    s.fault = false := by
  refine Bool.eq_false_iff.2 fun hf => ?_
  have hidle := h.faultIdle hf
  rw [hseq] at hidle
  cases hidle

/-- BUSY is 1 only while the entry at the sequencer's index is the wait (R139). -/
theorem Inv.op_of_busy {s : State} (h : Inv s) {i : Instr} {k : Nat} {op : MicroOp}
    (hseq : s.seq = .running i k) (hget : (opsOf s.cfg i)[k]? = some op) (hb : busy s = true) :
    op = .pollBusy := by
  obtain ⟨ch, hch⟩ := h.busyWaits hb
  rw [hseq] at hch
  cases hch
  exact (Option.some.inj hget).symm

/-- The invariant reads neither the host's words nor the response port nor the model's own fields. -/
theorem Inv.congr {s t : State} (h : Inv s) (hcfg : t.cfg = s.cfg) (hregs : t.regs = s.regs)
    (hseq : t.seq = s.seq) (hf : t.fault = s.fault) (hc : t.fcause = s.fcause) (hw : t.fword = s.fword) :
    Inv t := by
  obtain ⟨⟩ := s
  obtain ⟨⟩ := t
  dsimp only at hcfg hregs hseq hf hc hw
  subst hcfg hregs hseq hf hc hw
  exact ⟨h.reservedZero, h.chselLegal, h.refcfgLegal, h.adcInitTogether, h.busyWaits, h.runningLegal,
    h.chselHeld, h.faultIdle, h.latch⟩

/-- The invariant of an idle state. -/
theorem Inv.of_idle {s : State} (hconv : ConverterLegal s) (hlatch : LatchLegal s) (hseq : s.seq = .idle)
    (hbusy : busy s = false) : Inv s := by
  obtain ⟨⟨hch, href⟩, hres, hinit⟩ := hconv
  exact
    { reservedZero := hres
      chselLegal := hch
      refcfgLegal := href
      adcInitTogether := hinit
      busyWaits := fun hb => by simp [hbusy] at hb
      runningLegal := fun i k hr => by simp [hseq] at hr
      chselHeld := fun ch k hr => by simp [hseq] at hr
      faultIdle := fun _ => hseq
      latch := hlatch }

/-- The invariant of a state with a command running. -/
theorem Inv.of_running {s : State} {i : Instr} {k : Nat} (hconv : ConverterLegal s) (hlatch : LatchLegal s)
    (hseq : s.seq = .running i k) (hfault : s.fault = false) (hwf : i.wf = true)
    (hk : k < (opsOf s.cfg i).length) (hbusy : busy s = true → (∃ ch, i = .aread ch) ∧ k = 2)
    (hheld : ∀ ch, i = .aread ch → 1 ≤ k → chsel s = BitVec.ofNat 4 ch.val) : Inv s := by
  obtain ⟨⟨hch, href⟩, hres, hinit⟩ := hconv
  exact
    { reservedZero := hres
      chselLegal := hch
      refcfgLegal := href
      adcInitTogether := hinit
      busyWaits := fun hb => by
        obtain ⟨⟨ch, rfl⟩, rfl⟩ := hbusy hb
        exact ⟨ch, hseq⟩
      runningLegal := fun j m hr => by
        rw [hseq] at hr
        cases hr
        exact ⟨hwf, hk⟩
      chselHeld := fun ch m hr => by
        rw [hseq] at hr
        cases hr
        exact hheld ch rfl
      faultIdle := fun hf => by simp [hfault] at hf
      latch := hlatch }

/-! ### The converter's registers (R136, R138, R140) -/

theorem AdselLegal.selectChannel {c : Config} {v : Byte} (h : AdselLegal c v) (k : AnaChannel) :
    AdselLegal c (fieldWrite v 0x0F#8 (chselValue k)) := by
  obtain ⟨hch, href⟩ := selectChannel_fields v k
  refine ⟨?_, by rw [href]; exact h.2⟩
  rw [hch, BitVec.toNat_ofNat]
  omega

theorem AdselLegal.selectReference {c : Config} {v : Byte} (h : AdselLegal c v) :
    AdselLegal c (fieldWrite v 0xF0#8 (refInitValue c)) := by
  obtain ⟨hch, href⟩ := selectReference_fields c v
  exact ⟨by rw [hch]; exact h.1, .inr href⟩

theorem AdcsrLegal.enable {c : Config} {v : Byte} (h : AdcsrLegal c v) :
    AdcsrLegal c (fieldWrite v 0x87#8 (divInitValue c)) := by
  obtain ⟨hres, hdiv, hen, -⟩ := enable_fields c v
  exact ⟨hres.trans h.1, .inr ⟨hen, hdiv⟩⟩

theorem AdcsrLegal.setBusy {c : Config} {v : Byte} (h : AdcsrLegal c v) : AdcsrLegal c (bitSet v 6) := by
  obtain ⟨hres, hdiv, hen, -⟩ := setBusy_fields v
  rw [AdcsrLegal, hres, hdiv, hen]
  exact h

theorem AdcsrLegal.clearBusy {c : Config} {v : Byte} (h : AdcsrLegal c v) : AdcsrLegal c (bitClr v 6) := by
  obtain ⟨hres, hdiv, hen, -⟩ := clearBusy_fields v
  rw [AdcsrLegal, hres, hdiv, hen]
  exact h

theorem ConverterLegal.microState {s : State} {i : Instr} {op : MicroOp} (hop : op ∈ opsOf s.cfg i)
    (h : ConverterLegal s) : ConverterLegal (microState op s) := by
  obtain ⟨hsel, hcsr⟩ := h
  rw [ConverterLegal, microState_cfg]
  rcases mem_opsOf_cases hop with hp | ⟨k, rfl⟩ | rfl | rfl | rfl | rfl
  · obtain ⟨ecsr, esel⟩ := hp.keeps_converter s
    rw [ecsr, esel]
    exact ⟨hsel, hcsr⟩
  · exact ⟨hsel.selectChannel k, hcsr⟩
  · exact ⟨hsel, hcsr.setBusy⟩
  · exact ⟨hsel, hcsr⟩
  · exact ⟨hsel.selectReference, hcsr⟩
  · exact ⟨hsel, hcsr.enable⟩

theorem ConverterLegal.adcComplete {s : State} (h : ConverterLegal s) : ConverterLegal (adcComplete s) :=
  ⟨h.1, h.2.clearBusy⟩

theorem ConverterLegal.step {s t : State} (h : ConverterLegal s) (hstep : step s = .next t) :
    ConverterLegal t := by
  rcases step_keeps_or_adcComplete
    (fun {u v} hu hc hr => by rw [ConverterLegal, hc, State.reg, State.reg, hr]; exact hu)
    ConverterLegal.microState hstep h with ⟨-, rfl⟩ | ht
  · exact h.adcComplete
  · exact ht

/-! ### SEQ and BUSY -/

/-- A command other than AREAD leaves BUSY as it was (R30). -/
theorem busy_exec {i : Instr} {s t : State} (hi : ∀ ch, i ≠ .aread ch) (h : exec i s = .next t) :
    busy t = busy s := by
  refine exec_keeps (P := fun u => busy u = busy s) (fun {u v} hu _ hr => ?_) (fun hop hu => ?_) h rfl
  · rw [busy, State.bit, State.reg, hr]
    exact hu
  · refine (busy_microState hop ?_).trans hu
    rintro rfl
    obtain ⟨n, hn⟩ := List.mem_iff_getElem?.1 hop
    obtain ⟨⟨ch, rfl⟩, -⟩ := trigger_only hn
    exact hi ch rfl

theorem opsOf_aread_length (c : Config) (ch : AnaChannel) : (opsOf c (.aread ch)).length = 4 := rfl

/-- Selecting a channel puts it in CHSEL (R138). -/
theorem chsel_selectChannel (s : State) (ch : AnaChannel) :
    chsel (microState (.regFld .adsel 0x0F#8 (chselValue ch)) s) = BitVec.ofNat 4 ch.val := by
  rw [chsel, microState, State.reg_setReg_self]
  exact (selectChannel_fields _ ch).1

/-- From its first entry on, AREAD has its channel in CHSEL (R138, R140). -/
theorem chsel_microState_aread {s : State} {ch : AnaChannel} {k : Nat} {op : MicroOp}
    (hget : (opsOf s.cfg (.aread ch))[k]? = some op)
    (hheld : 1 ≤ k → chsel s = BitVec.ofNat 4 ch.val) :
    chsel (microState op s) = BitVec.ofNat 4 ch.val := by
  match k, hget with
  | 0, hget => cases hget; exact chsel_selectChannel s ch
  | 1, hget => cases hget; exact hheld (by omega)
  | 2, hget => cases hget; exact hheld (by omega)
  | 3, hget => cases hget; exact hheld (by omega)
  | n + 4, hget => cases hget

/-- A command run whole from an idle, unfaulted block: AREAD comes to its wait, every other one to Idle. -/
theorem exec_keeps_inv {i : Instr} {s t : State} (h : Inv s) (hseq : s.seq = .idle) (hfault : s.fault = false)
    (hwf : i.wf = true) (hconv : ConverterLegal t) (he : exec i s = .next t) : Inv t := by
  have hrun : runOps i (opsOf s.cfg i) 0 s = t := by
    rw [exec_wf hwf] at he
    exact Host.Outcome.next.inj he
  have hlatch : LatchLegal t := hrun ▸ LatchLegal.congr h.latch (by simp) (by simp) (by simp)
  by_cases haread : ∃ ch, i = .aread ch
  · obtain ⟨ch, rfl⟩ := haread
    rw [runOps_aread] at hrun
    subst hrun
    refine .of_running hconv hlatch rfl hfault rfl (by rw [opsOf_aread_length]; omega)
      (fun _ => ⟨⟨ch, rfl⟩, rfl⟩) ?_
    rintro _ ⟨⟩ -
    exact chsel_selectChannel s ch
  · have hne : ∀ ch, i ≠ .aread ch := fun ch e => haread ⟨ch, e⟩
    exact .of_idle hconv hlatch (hrun ▸ runOps_idle hwf hne) ((busy_exec hne he).trans (h.busy_of_idle hseq))

/-- The port's step (R81): nothing presented, a word refused, a word latched, a command started or run. -/
theorem portStep_keeps_inv {s t : State} (h : Inv s) (hseq : s.seq = .idle) (hconv : ConverterLegal t)
    (hp : portStep s = .next t) : Inv t := by
  rcases portStep_cases hp with ⟨-, rfl⟩ | ⟨w, rest, -, ⟨-, rfl⟩ | ⟨-, c, hd, rfl⟩ | ⟨hf, i, hd, -, rfl⟩ |
    ⟨hf, i, hd, -, he⟩⟩
  · exact h.congr rfl rfl rfl rfl rfl rfl
  · exact h.congr rfl rfl hseq.symm rfl rfl rfl
  · exact .of_idle hconv (.inr ⟨rfl, c, hd, rfl⟩) rfl (h.busy_of_idle hseq)
  · have hb : busy s = false := h.busy_of_idle hseq
    have hwf := wf_of_decode hd
    refine .of_running hconv h.latch rfl hf hwf (List.length_pos_of_ne_nil (opsOf_ne_nil hwf))
      (fun hb' => ?_) (fun _ _ hk => absurd hk (by omega))
    exact absurd (hb.symm.trans hb') (by decide)
  · exact exec_keeps_inv (h.congr (t := { s with host := rest }) rfl rfl rfl rfl rfl rfl) hseq hf
      (wf_of_decode hd) hconv he

/-- The sequencer's step (R24, R139): the wait repeats, the last entry responds, any other one advances. -/
theorem seqStep_keeps_inv {i : Instr} {k : Nat} {s t : State} (h : Inv s) (hseq : s.seq = .running i k)
    (hconv : ConverterLegal t) (hs : seqStep i k s = .next t) : Inv t := by
  obtain ⟨hwf, hk⟩ := h.runningLegal i k hseq
  have hfault := h.fault_of_running hseq
  obtain ⟨op, hget, ⟨-, -, rfl⟩ | ⟨hwait, hend, rfl⟩ | ⟨hwait, hend, rfl⟩⟩ := seqStep_cases hs
  · exact h.congr rfl rfl hseq.symm rfl rfl rfl
  all_goals
    have hlatch : LatchLegal (microState op s) := LatchLegal.congr h.latch (by simp) (by simp) (by simp)
    have hbusy : op ≠ .trigger → busy (microState op s) = false := fun htrig => by
      rw [busy_microState (List.mem_of_getElem? hget) htrig]
      exact Bool.eq_false_iff.2 fun hb => hwait ⟨h.op_of_busy hseq hget hb, hb⟩
  · refine .of_idle hconv hlatch rfl (hbusy ?_)
    rintro rfl
    obtain ⟨⟨ch, rfl⟩, rfl⟩ := trigger_only hget
    rw [opsOf_aread_length] at hend
    omega
  · refine .of_running hconv hlatch rfl (by simpa using hfault) hwf ?_ (fun hb => ?_) ?_
    · rw [atIndex_cfg, microState_cfg]
      omega
    · by_cases htrig : op = .trigger
      · subst htrig
        obtain ⟨hch, rfl⟩ := trigger_only hget
        exact ⟨hch, rfl⟩
      · exact absurd ((hbusy htrig).symm.trans hb) (by decide)
    · rintro ch rfl -
      exact chsel_microState_aread hget (h.chselHeld ch k hseq)

/-- The converter's step clears BUSY and leaves SEQ and CHSEL alone (R140). -/
theorem adcComplete_keeps_inv {i : Instr} {k : Nat} {s : State} (h : Inv s) (hseq : s.seq = .running i k) :
    Inv (adcComplete s) := by
  obtain ⟨hwf, hk⟩ := h.runningLegal i k hseq
  refine .of_running h.converterLegal.adcComplete h.latch hseq (h.fault_of_running hseq) hwf hk
    (fun hb => by simp at hb) ?_
  rintro ch rfl hk
  exact h.chselHeld ch k hseq hk

/-- The step lemma of the invariant. -/
theorem step_keeps_inv {s t : State} (h : Inv s) (hstep : step s = .next t) : Inv t := by
  have hconv : ConverterLegal t := h.converterLegal.step hstep
  cases hseq : s.seq with
  | idle => exact portStep_keeps_inv h hseq hconv (step_idle hseq ▸ hstep)
  | running i k =>
    rw [step_running hseq] at hstep
    rcases runningStep_cases hstep with ⟨-, -, rfl⟩ | ⟨left, hs, -⟩
    · exact adcComplete_keeps_inv h hseq
    · exact seqStep_keeps_inv (h.congr (t := { s with convLeft := left }) rfl rfl rfl rfl rfl rfl) hseq hconv hs

/-- Settles O16, by the cases of a step: the port's, the sequencer's and the converter's. -/
theorem everyStepKeepsTheInvariant : Obligations.EveryStepKeepsTheInvariant := fun _ _ => step_keeps_inv

/-! ### Reset (R50) -/

/-- Every stored 8-bit register is 0 at reset. -/
theorem reg_reset (r : Reg8) : State.reset.reg r = 0x00#8 := by
  cases r with
  | dir g => cases g <;> rfl
  | out g => cases g <;> rfl
  | mca t => revert t; decide
  | mcb t => revert t; decide
  | duty ch => revert ch; decide
  | adsel => rfl
  | adcsr => rfl

theorem bit_reset (r : Reg8) (b : BitIx) : State.reset.bit r b = false := by
  simp [State.bit, reg_reset]

/-- Settles O15, as an idle state whose registers are all 0. -/
theorem reachableInvariantAtReset : Obligations.ReachableInvariantAtReset :=
  .of_idle (by rw [ConverterLegal, reg_reset, reg_reset, AdselLegal, AdcsrLegal]; decide)
    (.inl ⟨rfl, rfl, rfl⟩) rfl (bit_reset _ _)

/-! ### Pads and input views (R40, R42) -/

/-- An input pin is not driven (R40). -/
theorem padDrive_input {s : State} {p : Pin} (hd : s.bit (dirOf s.cfg p) (bitOf s.cfg p) = false) :
    padDrive s p = .Z := by
  rw [padDrive, hd]
  rfl

/-- An output connected to a timer that is not active has a drive without a meaning (R40). -/
theorem padDrive_inactive {s : State} {p : Pin} {ch : Channel} (hch : channelOf s.cfg p = some ch)
    (hd : s.bit (dirOf s.cfg p) (bitOf s.cfg p) = true) (hc : connected s ch = true)
    (ha : pwmActive s (timerOf ch) = false) : padDrive s p = .X := by
  rw [padDrive, hd, if_pos rfl, hch]
  simp [channelDrive, hc, ha]

/-- A timer is active in fast-PWM mode with its clock running (R41). -/
theorem pwmActive_iff {s : State} {t : Timer} : pwmActive s t = true ↔
    (s.reg (.mca t)).extractLsb' 0 2 = 0b11#2 ∧ (s.reg (.mcb t)).extractLsb' 0 3 ≠ 0#3 := by
  simp [pwmActive, wgm, clockSelect]

theorem timerOf_eq {ch : Channel} {t : Timer} (h : t.val = ch.val / 2) : timerOf ch = t := Fin.ext h.symm

theorem coBit_eq {ch : Channel} {b : BitIx} (h : b.val = 7 - 2 * (ch.val % 2)) : coBit ch = b := Fin.ext h.symm

/-- The registers and the bit of a pin, from PINMAP (R61). -/
theorem portBit_of_pinAt {c : Config} {p : Pin} {g : Group} {b : BitIx} (h : pinAt c p = (g, b)) :
    dirOf c p = .dir g ∧ outOf c p = .out g ∧ bitOf c p = b := by
  simp [dirOf, outOf, bitOf, h]

/-- Settles O2, clause by clause of R40's multiplexer. -/
theorem padDriveIsTheMultiplexer : Obligations.PadDriveIsTheMultiplexer := by
  intro s p g b hpin
  obtain ⟨hdir, hout, hbit⟩ := portBit_of_pinAt hpin
  rw [← hdir, ← hout, ← hbit]
  refine ⟨padDrive_input, fun hd hnone => padDrive_output hd (by simp [hnone]), ?_⟩
  intro ch t co hd hch ht hco
  rw [← timerOf_eq ht, ← coBit_eq hco, ← pwmActive_iff]
  refine ⟨fun hc => padDrive_output hd fun ch' hch' => ?_, fun hc ha => padDrive_pwm hch hd hc ha,
    fun hc ha => padDrive_inactive hch hd hc (by simpa using ha)⟩
  rw [hch] at hch'
  cases hch'
  exact hc

/-- A group bit that carries no pin reads the environment's level (R42). -/
theorem padLevel_unmapped {s : State} {g : Group} {b : BitIx} (h : ∀ p, pinAt s.cfg p ≠ (g, b)) :
    padLevel s g b = Config.envLevel s.draws g b := by
  simp [padLevel, pinOfBit_none h]

/-- Settles O3: a bit of the read is the pad's level, which its drive settles. -/
theorem inputBitReadsThePad : Obligations.InputBitReadsThePad := by
  intro s g hok
  refine ⟨fun b hb => (readHandle_inp_bit s g b).trans (padLevel_unmapped hb), fun b p hp => ?_, fun j hj => ?_⟩
  · rw [readHandle_inp_bit, padLevel_pin hok hp]
    refine ⟨fun hH => ?_, fun hL => ?_, levelOfDrive_else⟩
    · rw [hH]; rfl
    · rw [hL]; rfl
  · rw [readHandle, BitVec.getLsbD_setWidth, BitVec.getLsbD_of_ge _ j hj, Bool.and_false]

/-- Every direction bit is 0 at reset, so no pad is driven (R50). -/
theorem padDrive_reset (p : Pin) : padDrive State.reset p = .Z := padDrive_input (bit_reset _ _)

/-- Settles O1: an undriven pad leaves its input bit to the environment. -/
theorem resetHoldsTheTable : Obligations.ResetHoldsTheTable := by
  refine ⟨reg_reset, rfl, rfl, rfl, rfl, rfl, fun g b => ?_, padDrive_reset⟩
  rw [padLevel]
  cases pinOfBit State.reset.cfg g b with
  | none => rfl
  | some p => simp [padDrive_reset, levelOfDrive]

end Sys2Proof.Machine

namespace Sys2Proof.Machine

/-! ### The frame of a micro-operation (R75) -/

/-- A field write keeps the bits of its register where the mask is 0 (R11). -/
theorem bit_regFld_of_mask {s : State} {r : Reg8} {m v : Byte} {b : BitIx} (hm : m.getLsbD b.val = false) :
    (microState (.regFld r m v) s).bit r b = s.bit r b := by
  rw [microState, State.bit, State.reg_setReg_self, fieldWrite_getLsbD, hm]
  rfl

/-- The trigger sets BUSY and keeps every other bit (R138). -/
theorem bitsKept_trigger (s : State) : BitsKept s (microState .trigger s) [(.adcsr, 6)] :=
  bitsKept_regSet (r := .adcsr) (b := 6)

/-- Only reads and the trigger draw, and only the trigger sets the converter's turn. -/
theorem noDraw_microState (s : State) {op : MicroOp} (htrig : op ≠ .trigger)
    (htst : ∀ h b, op ≠ .regTst h b) (hread : ∀ h, op ≠ .regRead h) : NoDraw s (microState op s) := by
  cases op with
  | regTst h b => exact absurd rfl (htst h b)
  | regRead h => exact absurd rfl (hread h)
  | trigger => exact absurd rfl htrig
  | regSet | regClr | regWr | regFld | pollBusy | skip => exact ⟨rfl, rfl⟩

/-- Settles O19: each entry's frame is its target register, refined to bits where the rule is. -/
theorem microOperationFrame : Obligations.MicroOperationFrame := by
  refine ⟨fun s r b => ?regSetClr, fun s r m v => ?regFld, fun s r v => ?regWr, fun s h b => ?reads,
    fun s => ?pollSkip, fun s => ?trigger, fun s op => ?fields⟩
  case regSetClr =>
    exact ⟨bitsKept_regSet, bitsKept_regClr, frame_microState (by simp [MicroOp.target]),
      frame_microState (by simp [MicroOp.target])⟩
  case regFld => exact ⟨frame_microState (by simp [MicroOp.target]), fun b => bit_regFld_of_mask⟩
  case regWr => exact frame_microState (by simp [MicroOp.target])
  case reads =>
    exact ⟨frame_microState (by simp [MicroOp.target]), frame_microState (by simp [MicroOp.target]),
      afterRead_convLeft s h, afterRead_convLeft s h⟩
  case pollSkip => exact ⟨Frame.refl s [], Frame.refl s []⟩
  case trigger => exact ⟨frame_microState (by simp [MicroOp.target]), bitsKept_trigger s⟩
  case fields => exact ⟨microState_seq op s, microState_rsp op s, noDraw_microState s⟩

/-! ### Running a command one micro-operation at a time (R24, R72) -/

/-- While BUSY is 0 the converter has no turn and no wait holds: the entry at the index is run. -/
theorem step_atIndex {s : State} {i : Instr} {k : Nat} {op : MicroOp}
    (hget : (opsOf s.cfg i)[k]? = some op) (hbusy : busy s = false) :
    step (atIndex i k s) = .next (if k + 1 = (opsOf s.cfg i).length
      then respond (microValue op s) (microState op s) else atIndex i (k + 1) (microState op s)) := by
  rw [step_running rfl, runningStep, if_neg (by simp [adcCompleteEnabled, hbusy]), seqStep, atIndex_cfg, hget]
  simp only [busy_atIndex, hbusy, Bool.false_eq_true, and_false, if_false, microState_atIndex,
    microValue_atIndex]
  split <;> rfl

/-- Only AREAD waits or triggers (R138). -/
theorem ne_pollBusy_and_ne_trigger {c : Config} {i : Instr} {op : MicroOp} (hi : ∀ k, i ≠ .aread k)
    (hop : op ∈ opsOf c i) : op ≠ .pollBusy ∧ op ≠ .trigger := by
  obtain ⟨n, hn⟩ := List.mem_iff_getElem?.1 hop
  constructor <;> rintro rfl
  · obtain ⟨⟨k, rfl⟩, -⟩ := pollBusy_only hn
    exact hi k rfl
  · obtain ⟨⟨k, rfl⟩, -⟩ := trigger_only hn
    exact hi k rfl

/-- Entries that neither wait nor trigger, up to the end of their command's list: one step for each comes to the
state that running them as one transition gives, by induction on the entries. -/
theorem runSteps_eq_runOps {i : Instr} {pre ops : List MicroOp} {s : State}
    (hops : opsOf s.cfg i = pre ++ ops) (hnil : ops ≠ [])
    (hne : ∀ op ∈ ops, op ≠ .pollBusy ∧ op ≠ .trigger) (hbusy : busy s = false) :
    runSteps ops.length (atIndex i pre.length s) = .next (runOps i ops pre.length s) := by
  induction ops generalizing pre s with
  | nil => exact absurd rfl hnil
  | cons op rest ih =>
    have hget : (opsOf s.cfg i)[pre.length]? = some op := by simp [hops]
    have hstep := step_atIndex hget hbusy
    cases rest with
    | nil =>
      rw [if_pos (by simp [hops])] at hstep
      rw [List.length_singleton, runSteps, hstep]
      rfl
    | cons nxt rest =>
      obtain ⟨hpoll, htrig⟩ := hne op (by simp)
      have hbusy' : busy (microState op s) = false :=
        (busy_microState (List.mem_of_getElem? hget) htrig).trans hbusy
      have hrest := ih (pre := pre ++ [op]) (s := microState op s) (by simp [hops]) (by simp)
        (fun o ho => hne o (by simp [ho])) hbusy'
      rw [List.length_append, List.length_singleton] at hrest
      rw [if_neg (by simp [hops])] at hstep
      rw [List.length_cons, runSteps, hstep, runOps_cons hpoll]
      exact hrest

/-- AREAD's first two entries, one step each, come to its wait (R138). -/
theorem runSteps_aread {s : State} {k : AnaChannel} (hbusy : busy s = false) :
    runSteps 2 (atIndex (.aread k) 0 s) = .next (runOps (.aread k) (opsOf s.cfg (.aread k)) 0 s) := by
  have hselect := step_atIndex (i := .aread k) (k := 0) (s := s) rfl hbusy
  have hbusy' : busy (microState (.regFld .adsel 0x0F#8 (chselValue k)) s) = false :=
    (busy_microState (i := .aread k) (List.mem_cons_self ..) (by simp)).trans hbusy
  have htrigger := step_atIndex (i := .aread k) (k := 1) rfl hbusy'
  rw [opsOf_aread_length, if_neg (by decide)] at hselect htrigger
  rw [runOps_aread, runSteps, hselect]
  simp only [runSteps, htrigger]
  rfl

/-- Settles O18: every list but AREAD's runs to its end, and AREAD's to its wait. -/
theorem microStepsReachTheCommandsState : Obligations.MicroStepsReachTheCommandsState := by
  intro s i hwf hbusy
  refine ⟨_, exec_wf hwf, fun hi => ?_, ?_⟩
  · exact runSteps_eq_runOps (pre := []) rfl (opsOf_ne_nil hwf)
      (fun _ => ne_pollBusy_and_ne_trigger hi) hbusy
  · rintro k rfl
    exact runSteps_aread hbusy

end Sys2Proof.Machine

namespace Sys2Proof

/-! ### A command's word gives the command back (R82 to R91) -/

/-- The word of every command passes the match and mask of its row (R90). -/
theorem encode_matches (i : Instr) : encode i &&& i.op.fmask = i.op.fmatch := by
  cases i with
  | setbit h b => exact Laws.EncodeMatchesRow.setbit h b
  | clrbit h b => exact Laws.EncodeMatchesRow.clrbit h b
  | testbit h b => exact Laws.EncodeMatchesRow.testbit h b
  | rdreg h => exact Laws.EncodeMatchesRow.rdreg h
  | pinmode p v => exact Laws.EncodeMatchesRow.pinmode p v
  | dwrite p v => exact Laws.EncodeMatchesRow.dwrite p v
  | dread p => exact Laws.EncodeMatchesRow.dread p
  | pwmwr p d => exact Laws.EncodeMatchesRow.pwmwr p d
  | aread k => exact Laws.EncodeMatchesRow.aread k
  | initpwm => exact Laws.EncodeMatchesRow.initpwm
  | initadc => exact Laws.EncodeMatchesRow.initadc
  | setupm => exact Laws.EncodeMatchesRow.setupm
  | setmotor m v => exact Laws.EncodeMatchesRow.setmotor m v
  | drivea v => exact Laws.EncodeMatchesRow.drivea v
  | driveb v => exact Laws.EncodeMatchesRow.driveb v
  | stopall => exact Laws.EncodeMatchesRow.stopall

theorem decode_encode_eq_decodeOperands (i : Instr) : decode (encode i) = decodeOperands (encode i) i.op := by
  rw [decode_of_code (opField_encode i), if_pos (encode_matches i)]

/-- A handle the opcode allows is read back from its number (R22). -/
theorem decodeHandle_num {h : Handle} {ok : Handle → Bool} (f : Handle → Instr) (hok : ok h = true) :
    decodeHandle h.num ok f = .command (f h) := by
  simp only [decodeHandle, Handle.ofNum_num, hok, if_true]

theorem decodePin_val (p : Pin) (f : Pin → Instr) : decodePin (BitVec.ofNat 5 p.val) f = .command (f p) := by
  have hp : (BitVec.ofNat 5 p.val).toNat = p.val := Nat.mod_eq_of_lt (by omega)
  simp only [decodePin, hp, p.isLt, dite_true]

theorem decodeChannel_val (k : AnaChannel) (f : AnaChannel → Instr) :
    decodeChannel (BitVec.ofNat 4 k.val) f = .command (f k) := by
  have hk : (BitVec.ofNat 4 k.val).toNat = k.val := Nat.mod_eq_of_lt (by omega)
  simp only [decodeChannel, hk, k.isLt, dite_true]

/-- A legal speed is read back from its 9-bit two's complement (R88). -/
theorem decodeSpeed_speedBits {v : Int} (f : Int → Instr) (h : speedOk v = true) :
    decodeSpeed (speedBits v) f = .command (f v) := by
  rw [decodeSpeed, if_neg (speedBits_ne h), speedBits_toInt h]

/-- `A[4:0]` of a command whose A field is five operand bits under zeros (R84 to R86). -/
theorem aLow5_encode {i : Instr} {n : BitVec 5} (h : i.aBits = 0#3 ++ n) : aLow5 (encode i) = n := by
  rw [aLow5, aField_encode, h, BitVec.extractLsb'_append_eq_right]

/-- `A[3:0]` of a command whose A field is four operand bits under zeros (R87). -/
theorem aLow4_encode {i : Instr} {n : BitVec 4} (h : i.aBits = 0#4 ++ n) : aLow4 (encode i) = n := by
  rw [aLow4, aField_encode, h, BitVec.extractLsb'_append_eq_right]

theorem toFin_bitBits (b : BitIx) : (bitBits b).toFin = b := by revert b; decide

/-- `B[2:0]` of a command whose B field is a bit number (R84). -/
theorem bitField_encode {i : Instr} {b : BitIx} (h : i.bBits = 0#5 ++ bitBits b) : bitField (encode i) = b := by
  rw [bitField, bField_encode, h, BitVec.extractLsb'_append_eq_right, toFin_bitBits]

/-- `B[0]` of a command whose B field is a level (R86). -/
theorem levelField_encode {i : Instr} {v : Bool} (h : i.bBits = 0#7 ++ levelBit v) :
    levelField (encode i) = v := by
  rw [levelField, bField_encode, h]
  cases v <;> rfl

/-- `{A[0], B[7:0]}` of a command whose A ends in the speed's sign bit and whose B is the speed's low byte (R88). -/
theorem speedField_encode {i : Instr} {v : Int}
    (ha : i.aBits.extractLsb' 0 1 = (speedBits v).extractLsb' 8 1)
    (hb : i.bBits = (speedBits v).extractLsb' 0 8) : speedField (encode i) = speedBits v := by
  rw [speedField, aField_encode, bField_encode, ha, hb]
  exact (BitVec.extractLsb'_append_extractLsb'_eq_extractLsb' rfl).trans BitVec.extractLsb'_eq_self

theorem decodeMotor_setmotor (m : Motor) (v : Int) :
    decodeMotor (motorField (encode (.setmotor m v))) = m := by
  rw [motorField, aField_encode, Instr.aBits]
  generalize (speedBits v).extractLsb' 8 1 = x
  revert x
  cases m <;> decide

/-- The operand check reads every operand of a well-formed command back from its word. -/
theorem decodeOperands_encode {i : Instr} (h : i.wf = true) : decodeOperands (encode i) i.op = .command i := by
  cases i <;> rw [Instr.op, decodeOperands]
  case setbit | clrbit | testbit => rw [aLow5_encode rfl, bitField_encode rfl, decodeHandle_num _ h]
  case rdreg => rw [aLow5_encode rfl, decodeHandle_num _ h]
  case pinmode | dwrite => rw [aLow5_encode rfl, levelField_encode rfl, decodePin_val]
  case dread => rw [aLow5_encode rfl, decodePin_val]
  case pwmwr => rw [aLow5_encode rfl, decodePin_val, dutyField, bField_encode, Instr.bBits]
  case aread => rw [aLow4_encode rfl, decodeChannel_val]
  case setmotor =>
    rw [speedField_encode BitVec.extractLsb'_append_eq_right rfl, decodeSpeed_speedBits _ h, decodeMotor_setmotor]
  case drivea | driveb =>
    rw [speedField_encode BitVec.extractLsb'_append_eq_right rfl, decodeSpeed_speedBits _ h]

/-- Settles O5: the word has its opcode's fixed bits, and each operand is read back from its field. -/
theorem decodeOfEncode : Obligations.DecodeOfEncode := fun i h =>
  (decode_encode_eq_decodeOperands i).trans (decodeOperands_encode h)

end Sys2Proof

namespace Sys2Proof

/-! ### A word that decodes to a command is that command's word (R91) -/

/-- A byte whose upper three bits must be zero is its low five bits. -/
theorem zeros_append_low5 : ∀ a : Byte, a &&& 0xE0#8 = 0#8 → 0#3 ++ a.extractLsb' 0 5 = a := by decide

/-- A byte whose upper four bits must be zero is its low four bits. -/
theorem zeros_append_low4 : ∀ a : Byte, a &&& 0xF0#8 = 0#8 → 0#4 ++ a.extractLsb' 0 4 = a := by decide

/-- A byte whose upper five bits must be zero is the bit number in its low three. -/
theorem zeros_append_bitBits : ∀ b : Byte, b &&& 0xF8#8 = 0#8 →
    0#5 ++ bitBits (b.extractLsb' 0 3).toFin = b := by decide

/-- A byte whose upper seven bits must be zero is the level in its lowest. -/
theorem zeros_append_levelBit : ∀ b : Byte, b &&& 0xFE#8 = 0#8 → 0#7 ++ levelBit (b.getLsbD 0) = b := by decide

theorem eq_zero_of_and_ff : ∀ a : Byte, a &&& 0xFF#8 = 0#8 → 0#8 = a := by decide

/-- The A field of format MS is the motor bit, zeros and the speed's sign (R88). -/
theorem motorBit_append_sign : ∀ a : Byte, a &&& 0x7E#8 = 0#8 →
    motorBit (decodeMotor (a.getLsbD 7)) ++ 0#6 ++ a.extractLsb' 0 1 = a := by decide

/-- The A field of a format with a speed alone is zeros and the speed's sign (R88). -/
theorem zeros_append_sign : ∀ a : Byte, a &&& 0xFE#8 = 0#8 → 0#7 ++ a.extractLsb' 0 1 = a := by decide

theorem speedBits_sign (w : Word) :
    (speedBits (speedField w).toInt).extractLsb' 8 1 = (aField w).extractLsb' 0 1 := by
  rw [speedBits, BitVec.ofInt_toInt, speedField, BitVec.extractLsb'_append_eq_left]

theorem speedBits_low (w : Word) : (speedBits (speedField w).toInt).extractLsb' 0 8 = bField w := by
  rw [speedBits, BitVec.ofInt_toInt, speedField, BitVec.extractLsb'_append_eq_right]

theorem zeros_append_handle {w : Word} {x : Handle} (hx : Handle.ofNum (aLow5 w) = some x)
    (ha : aField w &&& 0xE0#8 = 0#8) : 0#3 ++ x.num = aField w := by
  rw [Handle.num_of_ofNum hx]
  exact zeros_append_low5 _ ha

theorem zeros_append_pin {w : Word} {p : Pin} (hp : p.val = (aLow5 w).toNat)
    (ha : aField w &&& 0xE0#8 = 0#8) : 0#3 ++ BitVec.ofNat 5 p.val = aField w := by
  rw [hp, BitVec.ofNat_toNat, BitVec.setWidth_eq]
  exact zeros_append_low5 _ ha

theorem zeros_append_channel {w : Word} {k : AnaChannel} (hk : k.val = (aLow4 w).toNat)
    (ha : aField w &&& 0xF0#8 = 0#8) : 0#4 ++ BitVec.ofNat 4 k.val = aField w := by
  rw [hk, BitVec.ofNat_toNat, BitVec.setWidth_eq]
  exact zeros_append_low4 _ ha

/-- Where the must-be-zero bits are zero, the command that the operand check answers has the word's opcode and
both its operand fields. -/
theorem fields_of_decodeOperands {w : Word} {o : Op} {i : Instr} (h : decodeOperands w o = .command i)
    (ha : aField w &&& o.aZeros = 0#8) (hb : bField w &&& o.bZeros = 0#8) :
    i.op = o ∧ i.aBits = aField w ∧ i.bBits = bField w := by
  cases o <;> rw [decodeOperands] at h
  case setbit | clrbit | testbit =>
    obtain ⟨x, hx, -, rfl⟩ := exists_of_decodeHandle h
    exact ⟨rfl, zeros_append_handle hx ha, zeros_append_bitBits _ hb⟩
  case rdreg =>
    obtain ⟨x, hx, -, rfl⟩ := exists_of_decodeHandle h
    exact ⟨rfl, zeros_append_handle hx ha, eq_zero_of_and_ff _ hb⟩
  case pinmode | dwrite =>
    obtain ⟨p, hp, rfl⟩ := exists_of_decodePin h
    exact ⟨rfl, zeros_append_pin hp ha, zeros_append_levelBit _ hb⟩
  case dread =>
    obtain ⟨p, hp, rfl⟩ := exists_of_decodePin h
    exact ⟨rfl, zeros_append_pin hp ha, eq_zero_of_and_ff _ hb⟩
  case pwmwr =>
    obtain ⟨p, hp, rfl⟩ := exists_of_decodePin h
    exact ⟨rfl, zeros_append_pin hp ha, rfl⟩
  case aread =>
    obtain ⟨k, hk, rfl⟩ := exists_of_decodeChannel h
    exact ⟨rfl, zeros_append_channel hk ha, eq_zero_of_and_ff _ hb⟩
  case initpwm | initadc | setupm | stopall =>
    cases h
    exact ⟨rfl, eq_zero_of_and_ff _ ha, eq_zero_of_and_ff _ hb⟩
  case setmotor =>
    obtain ⟨-, rfl⟩ := exists_of_decodeSpeed h
    refine ⟨rfl, ?_, speedBits_low w⟩
    rw [Instr.aBits, speedBits_sign]
    exact motorBit_append_sign _ ha
  case drivea | driveb =>
    obtain ⟨-, rfl⟩ := exists_of_decodeSpeed h
    refine ⟨rfl, ?_, speedBits_low w⟩
    rw [Instr.aBits, speedBits_sign]
    exact zeros_append_sign _ ha

/-- A word that decodes to a command is the command's word. -/
theorem encode_of_decode {w : Word} {i : Instr} (h : decode w = .command i) : encode i = w := by
  obtain ⟨o, hcode, hmatch, hoperands⟩ := decodeOperands_of_decode h
  obtain ⟨ha, hb⟩ := (matches_iff hcode).1 hmatch
  obtain ⟨hop, haBits, hbBits⟩ := fields_of_decodeOperands hoperands ha hb
  rw [encode, hop, ← hcode, haBits, hbBits, wordOf_fields]

/-- Settles O6: opcode and operand fields make up the whole word. -/
theorem encodeOfDecode : Obligations.EncodeOfDecode := fun _ _ h => ⟨encode_of_decode h, wf_of_decode h⟩

/-- Decoding a word to a command is having that well-formed command's encoding. -/
theorem decode_eq_command_iff {w : Word} {i : Instr} : decode w = .command i ↔ i.wf = true ∧ encode i = w :=
  ⟨fun h => ⟨wf_of_decode h, encode_of_decode h⟩, fun ⟨hwf, he⟩ => he ▸ decodeOfEncode i hwf⟩

end Sys2Proof

namespace Sys2Proof

open Machine (bitWritableNumbers)

/-! ### Which words are refused, and with which cause (R91 to R93, R173) -/

theorem decodeHandle_refused_iff {n : BitVec 5} {ok : Handle → Bool} {f : Handle → Instr} {c : Cause} :
    decodeHandle n ok f = .refused c ↔ c = .badHandle ∧ ∀ x, Handle.ofNum n = some x → ok x = false := by
  rw [decodeHandle]
  cases hx : Handle.ofNum n with
  | none => simp [eq_comm (a := c)]
  | some x => cases hok : ok x <;> simp [hok, eq_comm (a := c)]

theorem decodePin_refused_iff {n : BitVec 5} {f : Pin → Instr} {c : Cause} :
    decodePin n f = .refused c ↔ c = .badPin ∧ 20 ≤ n.toNat := by
  rw [decodePin]
  split
  · rename_i hn
    simp [Nat.not_le.2 hn]
  · rename_i hn
    simp [Nat.not_lt.1 hn, eq_comm (a := c)]

theorem decodeChannel_refused_iff {n : BitVec 4} {f : AnaChannel → Instr} {c : Cause} :
    decodeChannel n f = .refused c ↔ c = .badChannel ∧ 6 ≤ n.toNat := by
  rw [decodeChannel]
  split
  · rename_i hn
    simp [Nat.not_le.2 hn]
  · rename_i hn
    simp [Nat.not_lt.1 hn, eq_comm (a := c)]

theorem decodeSpeed_refused_iff {v : BitVec 9} {f : Int → Instr} {c : Cause} :
    decodeSpeed v f = .refused c ↔ c = .badSpeed ∧ v = 0x100#9 := by
  rw [decodeSpeed]
  split
  · rename_i hv
    simp [hv, eq_comm (a := c)]
  · rename_i hv
    simp [hv]

/-- The handles that name no bit-writable register are those outside R90's list. -/
theorem not_bitWritable_iff : ∀ n : BitVec 5,
    (∀ x, Handle.ofNum n = some x → x.bitWritable = false) ↔ n ∉ bitWritableNumbers := by decide

/-- The handles TESTBIT does not take are ADRES and the reserved ones (R102). -/
theorem not_bitTestable_iff : ∀ n : BitVec 5,
    (∀ x, Handle.ofNum n = some x → x.bitTestable = false) ↔ 0x17 ≤ n.toNat := by decide

/-- The handles RDREG does not take are the reserved ones (R64). -/
theorem reserved_handle_iff : ∀ n : BitVec 5,
    (∀ x, Handle.ofNum n = some x → true = false) ↔ 0x18 ≤ n.toNat := by decide

/-- The operand fault of a word under an opcode, and its cause (R93). -/
def OperandFault (w : Word) (c : Cause) : Op → Prop
  | .setbit | .clrbit => c = .badHandle ∧ aLow5 w ∉ bitWritableNumbers
  | .testbit => c = .badHandle ∧ 0x17 ≤ (aLow5 w).toNat
  | .rdreg => c = .badHandle ∧ 0x18 ≤ (aLow5 w).toNat
  | .pinmode | .dwrite | .dread | .pwmwr => c = .badPin ∧ 20 ≤ (aLow5 w).toNat
  | .aread => c = .badChannel ∧ 6 ≤ (aLow4 w).toNat
  | .setmotor | .drivea | .driveb => c = .badSpeed ∧ speedField w = 0x100#9
  | .initpwm | .initadc | .setupm | .stopall => False

/-- The operand check refuses exactly the operand faults. -/
theorem decodeOperands_refused_iff {w : Word} {o : Op} {c : Cause} :
    decodeOperands w o = .refused c ↔ OperandFault w c o := by
  cases o <;> rw [decodeOperands, OperandFault]
  case setbit | clrbit => rw [decodeHandle_refused_iff, not_bitWritable_iff]
  case testbit => rw [decodeHandle_refused_iff, not_bitTestable_iff]
  case rdreg => rw [decodeHandle_refused_iff, reserved_handle_iff]
  case pinmode | dwrite | dread | pwmwr => exact decodePin_refused_iff
  case aread => exact decodeChannel_refused_iff
  case setmotor | drivea | driveb => exact decodeSpeed_refused_iff
  case initpwm | initadc | setupm | stopall => simp

/-- Under a legal opcode a word is refused for a must-be-zero bit first, else for its operand (R173). -/
theorem decode_refused_iff {w : Word} {o : Op} {c : Cause} (h : opField w = o.code) :
    decode w = .refused c ↔ (c = .reservedField ∧ w &&& o.fmask ≠ o.fmatch) ∨
      (w &&& o.fmask = o.fmatch ∧ OperandFault w c o) := by
  rw [decode_of_code h]
  split
  · rename_i hm
    simp [hm, decodeOperands_refused_iff]
  · rename_i hm
    simp [hm, eq_comm (a := c)]

theorem not_operandFault_illegalOp {w : Word} {o : Op} : ¬ OperandFault w .illegalOp o := by
  cases o <;> simp [OperandFault]

theorem not_operandFault_reservedField {w : Word} {o : Op} : ¬ OperandFault w .reservedField o := by
  cases o <;> simp [OperandFault]

theorem decode_illegalOp_iff {w : Word} : decode w = .refused .illegalOp ↔ ∀ o : Op, o.code ≠ opField w := by
  refine ⟨fun h o ho => ?_, decode_illegal⟩
  rcases (decode_refused_iff ho.symm).1 h with ⟨hc, -⟩ | ⟨-, hf⟩
  · cases hc
  · exact not_operandFault_illegalOp hf

theorem operandFault_badHandle_iff {w : Word} {o : Op} : OperandFault w .badHandle o ↔
    (o ∈ [.setbit, .clrbit] ∧ aLow5 w ∉ bitWritableNumbers) ∨ (o = .testbit ∧ 0x17 ≤ (aLow5 w).toNat) ∨
      (o = .rdreg ∧ 0x18 ≤ (aLow5 w).toNat) := by
  cases o <;> simp [OperandFault]

theorem operandFault_badPin_iff {w : Word} {o : Op} : OperandFault w .badPin o ↔
    o ∈ [.pinmode, .dwrite, .dread, .pwmwr] ∧ 20 ≤ (aLow5 w).toNat := by
  cases o <;> simp [OperandFault]

theorem operandFault_badChannel_iff {w : Word} {o : Op} : OperandFault w .badChannel o ↔
    o = .aread ∧ 6 ≤ (aLow4 w).toNat := by
  cases o <;> simp [OperandFault]

theorem operandFault_badSpeed_iff {w : Word} {o : Op} : OperandFault w .badSpeed o ↔
    o ∈ [.setmotor, .drivea, .driveb] ∧ speedField w = 0x100#9 := by
  cases o <;> simp [OperandFault]

/-- A cause other than RESERVED_FIELD is an operand fault of a word without a must-be-zero bit set. -/
theorem decode_refused_operand_iff {w : Word} {o : Op} {c : Cause} (h : opField w = o.code)
    (hc : c ≠ .reservedField) : decode w = .refused c ↔ w &&& o.fmask = o.fmatch ∧ OperandFault w c o := by
  simp [decode_refused_iff h, hc]

/-- Settles O7, cause by cause: the opcode, the must-be-zero bits, then the operand. -/
theorem refusedWordsAndCauses : Obligations.RefusedWordsAndCauses := by
  refine ⟨fun w => ?illegalOp, fun w o h => ⟨?reservedField, ?badHandle, ?badPin, ?badChannel, ?badSpeed⟩⟩
  case illegalOp =>
    have hcodes : (∀ o : Op, o.code ≠ opField w) ↔ opField w ∉ Op.all.map Op.code := by
      simp [Op.mem_all]
    exact decode_illegalOp_iff.trans hcodes
  case reservedField => simp [decode_refused_iff h, not_operandFault_reservedField]
  case badHandle => rw [decode_refused_operand_iff h (by decide), operandFault_badHandle_iff]
  case badPin => rw [decode_refused_operand_iff h (by decide), operandFault_badPin_iff]
  case badChannel => rw [decode_refused_operand_iff h (by decide), operandFault_badChannel_iff]
  case badSpeed => rw [decode_refused_operand_iff h (by decide), operandFault_badSpeed_iff]

/-! ### The spec's words (95_test_vectors.md 2.1, 2.2) -/

/-- Settles O4: the eight command words are their commands' encodings, and the two refused ones have a
must-be-zero bit set and the speed 0x100. -/
theorem specWordsDecode : Obligations.SpecWordsDecode := by
  refine ⟨?_, ?_, ?_, ?_, ?_, ?_, ?_, ?_, ?setbitZeros, ?driveaSpeed⟩
  case setbitZeros => exact (decode_refused_iff (o := .setbit) rfl).2 (.inl ⟨rfl, by decide⟩)
  case driveaSpeed => exact (decode_refused_iff (o := .drivea) rfl).2 (.inr ⟨rfl, rfl, rfl⟩)
  all_goals exact decode_eq_command_iff.2 ⟨rfl, rfl⟩

end Sys2Proof

namespace Sys2Proof.Machine

/-! ### Words taken and responses given (R24, R81, R98) -/

/-- A step of a running command takes no word, and responds exactly when it makes SEQ Idle, with no error. -/
def RunningStepAnswers (s t : State) : Prop :=
  t.host = s.host ∧ ((t.seq = .idle ∧ ∃ v, t.rsp = some ⟨false, v⟩) ∨ (t.seq ≠ .idle ∧ t.rsp = none))

theorem runningStep_answers {s t : State} {i : Instr} {k : Nat} (hseq : s.seq = .running i k)
    (h : step s = .next t) : RunningStepAnswers s t := by
  rw [step_running hseq] at h
  rcases runningStep_cases h with ⟨-, -, rfl⟩ | ⟨left, h, -⟩
  · exact ⟨rfl, .inr ⟨by simp [hseq], rfl⟩⟩
  · obtain ⟨op, -, ⟨-, -, rfl⟩ | ⟨-, -, rfl⟩ | ⟨-, -, rfl⟩⟩ := seqStep_cases h
    · exact ⟨rfl, .inr ⟨by simp, rfl⟩⟩
    · exact ⟨by simp, .inl ⟨rfl, _, rfl⟩⟩
    · exact ⟨by simp, .inr ⟨by simp, rfl⟩⟩

/-- Settles O13: only the step of the last micro-operation responds, and it makes SEQ Idle. -/
theorem oneResponsePerRunningCommand : Obligations.OneResponsePerRunningCommand := by
  intro s t i k hseq h
  obtain ⟨hhost, ⟨hidle, v, hrsp⟩ | ⟨hrun, hrsp⟩⟩ := runningStep_answers hseq h
  · exact ⟨hhost, by simp [hidle, hrsp], by simp [hrsp]⟩
  · exact ⟨hhost, by simp [hrun, hrsp], by simp [hrsp]⟩

/-- The step of an idle, unfaulted block on a word that decodes to a command (R81). -/
theorem step_of_decode {s : State} {w : Word} {rest : List Word} {i : Instr} (hseq : s.seq = .idle)
    (hfault : s.fault = false) (hhost : s.host = w :: rest) (hd : decode w = .command i) :
    step s = startCommand i { s with host := rest } := by
  rw [step_idle hseq, portStep, hhost]
  simp only [acceptWord, hfault, hd, Bool.false_eq_true, if_false]

theorem startCommand_command {i : Instr} {s : State} (h : s.grain = .command) : startCommand i s = exec i s := by
  simp only [startCommand, h]

theorem startCommand_micro {i : Instr} {s : State} (h : s.grain = .micro) :
    startCommand i s = .next (atIndex i 0 s) := by
  simp only [startCommand, h]

/-- Settles O9: a decoded word is run or started, and withFetchWord presents its word to a block that runs it. -/
theorem stepRunsDecodedCommand : Obligations.StepRunsDecodedCommand := by
  refine ⟨fun s w rest i hseq hfault hhost hd => ⟨fun hgrain => ?_, fun hgrain => ?_⟩, fun s w i hd => ?_⟩
  · exact (step_of_decode hseq hfault hhost hd).trans (startCommand_command hgrain)
  · exact (step_of_decode hseq hfault hhost hd).trans (startCommand_micro hgrain)
  · have hhost : (s.withFetchWord 24 w.toNat).host = w :: s.host := by
      simp [State.withFetchWord, Nat.mod_eq_of_lt w.isLt]
    exact (step_of_decode rfl rfl hhost hd).trans (startCommand_command rfl)

end Sys2Proof.Machine

namespace Sys2Proof

/-! ### The word of a command as an or of its fields (R82) -/

theorem wordOf_eq_or (x a b : Byte) :
    wordOf x a b = (x.setWidth 24 <<< 16) ||| (a.setWidth 24 <<< 8) ||| b.setWidth 24 := by
  calc wordOf x a b = (x ++ (a ++ b)).setWidth 24 := (BitVec.setWidth_eq _).symm
    _ = (x.setWidth 24 <<< 16) ||| ((a.setWidth 24 <<< 8) ||| b.setWidth 24) := by
      rw [BitVec.setWidth_append_eq_shiftLeft_setWidth_or, BitVec.setWidth_append_eq_shiftLeft_setWidth_or]
    _ = _ := (BitVec.or_assoc _ _ _).symm

/-- The match column of R90 is the opcode byte in its place. -/
theorem Op.code_shiftLeft (o : Op) : o.code.setWidth 24 <<< 16 = o.fmatch := by cases o <;> decide

theorem setWidth_zeros_append {k n m : Nat} (x : BitVec n) : (0#k ++ x).setWidth m = x.setWidth m := by
  rw [BitVec.setWidth_append_eq_shiftLeft_setWidth_or, BitVec.setWidth_zero, BitVec.zero_shiftLeft,
    BitVec.zero_or]

theorem setWidth_bitBits : ∀ b : BitIx, (bitBits b).setWidth 24 = BitVec.ofNat 24 b.val := by decide

/-- The word of a command whose A field is five operand bits under zeros (R84 to R86). -/
theorem encode_low5 {i : Instr} {n : BitVec 5} (h : i.aBits = 0#3 ++ n) :
    encode i = i.op.fmatch ||| (n.setWidth 24 <<< 8) ||| i.bBits.setWidth 24 := by
  rw [encode, wordOf_eq_or, Op.code_shiftLeft, h, setWidth_zeros_append]

/-- The word of a command of format HB, a handle and a bit number (R84). -/
theorem encode_handle_bit {i : Instr} {h : Handle} {b : BitIx} (ha : i.aBits = 0#3 ++ h.num)
    (hb : i.bBits = 0#5 ++ bitBits b) :
    encode i = i.op.fmatch ||| (h.num.setWidth 24 <<< 8) ||| BitVec.ofNat 24 b.val := by
  rw [encode_low5 ha, hb, setWidth_zeros_append, setWidth_bitBits]

end Sys2Proof

namespace Sys2Proof.Machine

/-- Under an opcode a word is refused for its row's must-be-zero bits, then for its operand (R91, R93). -/
theorem refusedUnder_of_operandFault (o : Op) {c : Cause} {bad : Word → Prop}
    (hbad : ∀ w, bad w → OperandFault w c o) :
    RefusedUnder o.code (wordOf 0#8 o.aZeros o.bZeros) c bad := by
  intro w hw
  have hzeros : w &&& wordOf 0#8 o.aZeros o.bZeros = 0#24 ↔ w &&& o.fmask = o.fmatch := by
    rw [zeros_iff _ _ (opField_wordOf _ _ _), matches_iff hw, aField_wordOf, bField_wordOf]
  exact ⟨fun h => (decode_refused_iff hw).2 (.inl ⟨rfl, fun e => h (hzeros.2 e)⟩),
    fun h hb => (decode_refused_iff hw).2 (.inr ⟨hzeros.1 h, hbad w hb⟩)⟩

/-! ### SETBIT and CLRBIT (R100, R101) -/

/-- The bit-writable handles are those of R90's list. -/
theorem bitWritable_iff_num {h : Handle} : h.bitWritable = true ↔ h.num ∈ bitWritableNumbers := by
  have hiff := not_bitWritable_iff h.num
  simp only [Handle.ofNum_num, Option.some.injEq, forall_eq', Bool.eq_false_iff] at hiff
  exact not_iff_not.1 hiff

/-- A bit-writable handle of a stored register reaches that register. -/
theorem bitTarget_of_bitWritable {r : Reg8} (h : (Handle.reg r).bitWritable = true) :
    (Handle.reg r).bitTarget = some r := by
  cases r with
  | dir | out | mca | mcb => rfl
  | duty | adsel | adcsr => cases h

theorem exec_setbit {r : Reg8} (h : (Handle.reg r).bitWritable = true) (b : BitIx) (s : State) :
    exec (.setbit (.reg r) b) s = .next (respond 0#16 (microState (regLevel r b true) s)) :=
  exec_single h (by rw [opsOf, setbitOps, bitTarget_of_bitWritable h]; rfl)

theorem exec_clrbit {r : Reg8} (h : (Handle.reg r).bitWritable = true) (b : BitIx) (s : State) :
    exec (.clrbit (.reg r) b) s = .next (respond 0#16 (microState (regLevel r b false) s)) :=
  exec_single h (by rw [opsOf, clrbitOps, bitTarget_of_bitWritable h]; rfl)

/-- Settles O23: SETBIT is the one RegSet of its register and bit. -/
theorem setbitSetsOneBit : Obligations.SetbitSetsOneBit := by
  refine ⟨fun h b => encode_handle_bit rfl rfl, refusedUnder_of_operandFault .setbit fun w hw => ⟨rfl, hw⟩,
    fun s r b hr => ?_⟩
  obtain ⟨hbit, hkept, hframe, hdraw, -⟩ := regLevel_effect s r b true
  exact ⟨_, exec_setbit (bitWritable_iff_num.2 hr) b s, ⟨rfl, rfl⟩, State.reg_setReg_self _ _ _, hbit, hkept,
    hframe.respond, hdraw⟩

/-- Settles O24: CLRBIT is the one RegClr of its register and bit. -/
theorem clrbitClearsOneBit : Obligations.ClrbitClearsOneBit := by
  refine ⟨fun h b => encode_handle_bit rfl rfl, refusedUnder_of_operandFault .clrbit fun w hw => ⟨rfl, hw⟩,
    fun s r b hr => ?_⟩
  obtain ⟨hbit, hkept, hframe, hdraw, -⟩ := regLevel_effect s r b false
  exact ⟨_, exec_clrbit (bitWritable_iff_num.2 hr) b s, ⟨rfl, rfl⟩, State.reg_setReg_self _ _ _, hbit, hkept,
    hframe.respond, hdraw⟩

/-! ### TESTBIT and RDREG (R102, R103) -/

theorem exec_testbit {h : Handle} (ht : h.bitTestable = true) (b : BitIx) (s : State) :
    exec (.testbit h b) s = .next (respond (zextBit (readBit s h b)) (afterRead s h)) :=
  exec_single (i := .testbit h b) (op := .regTst h b) ht rfl

theorem exec_rdreg (h : Handle) (s : State) :
    exec (.rdreg h) s = .next (respond (readHandle s h) (afterRead s h)) :=
  exec_single (i := .rdreg h) (op := .regRead h) rfl rfl

/-- A read changes nothing the spec names (R68). -/
theorem frame_afterRead (s : State) (h : Handle) : Frame s (afterRead s h) [] :=
  frame_microState (op := .regRead h) (by simp [MicroOp.target])

/-- Settles O25: TESTBIT is the one RegTst, and BUSY is 0 in an idle state of the invariant. -/
theorem testbitReturnsOneBit : Obligations.TestbitReturnsOneBit := by
  refine ⟨fun h b => encode_handle_bit rfl rfl, refusedUnder_of_operandFault .testbit fun w hw => ⟨rfl, hw⟩,
    fun s r b => ?stored, fun s g b => ?view, fun s hinv hseq => ?busyBit⟩
  case stored => exact ⟨_, exec_testbit rfl b s, ⟨rfl, rfl⟩, (frame_afterRead s _).respond, rfl, rfl⟩
  case view => exact ⟨_, exec_testbit rfl b s, ⟨rfl, rfl⟩, (frame_afterRead s _).respond, rfl, rfl⟩
  case busyBit =>
    have hbit : readBit s (.reg .adcsr) 6 = false := hinv.busy_of_idle hseq
    exact ⟨_, exec_testbit rfl 6 s, rfl, by rw [hbit]; rfl⟩

/-- Settles O26: RDREG is the one whole read, and an input view has eight bits. -/
theorem rdregReturnsTheRegister : Obligations.RdregReturnsTheRegister := by
  refine ⟨fun h => ?word, refusedUnder_of_operandFault .rdreg fun w hw => ⟨rfl, hw⟩, fun s r => ?stored,
    fun s => ?adres, fun s g => ?view⟩
  case word => exact (encode_low5 rfl).trans BitVec.or_zero
  case stored => exact ⟨_, exec_rdreg _ s, ⟨rfl, rfl⟩, (frame_afterRead s _).respond, rfl, rfl⟩
  case adres => exact ⟨_, exec_rdreg _ s, ⟨rfl, rfl⟩, (frame_afterRead s _).respond, rfl, rfl⟩
  case view =>
    have hbyte : (readHandle s (.inp g)).toNat < 256 := by
      rw [readHandle, BitVec.toNat_setWidth_of_le (by decide)]
      exact (inputView s g).isLt
    exact ⟨_, _, exec_rdreg _ s, ⟨rfl, rfl⟩, readHandle_inp_bit s g, hbyte, (frame_afterRead s _).respond, rfl, rfl⟩

/-! ### The laws of the primitives (R104) -/

/-- TESTBIT after a bit is given a level reads that level. -/
theorem exec_testbit_regLevel (r : Reg8) (b : BitIx) (v : Bool) (s : State) :
    ∃ u, exec (.testbit (.reg r) b) (respond 0#16 (microState (regLevel r b v) s)) = .next u ∧
      Completed u (zextBit v) := by
  have hbit : readBit (respond 0#16 (microState (regLevel r b v) s)) (.reg r) b = v := (regLevel_effect s r b v).1
  exact ⟨_, exec_testbit rfl b _, rfl, by rw [hbit]; rfl⟩

/-- Two states with the same bits of every stored 8-bit register and the same ADRES have the same registers. -/
theorem regs_ext_bit {s t : State} (hbit : ∀ r b, s.bit r b = t.bit r b) (hadres : s.regs.adres = t.regs.adres) :
    s.regs = t.regs :=
  Regs.ext_get _ _ (fun r => byte_ext _ _ (hbit r)) hadres

/-- Giving levels to two different bits commutes in the registers, whatever was responded between. -/
theorem regLevel_comm {s : State} {r r' : Reg8} {b b' : BitIx} (h : (r, b) ≠ (r', b')) (v v' : Bool)
    (x x' : Data) :
    (microState (regLevel r' b' v') (respond x (microState (regLevel r b v) s))).regs =
      (microState (regLevel r b v) (respond x' (microState (regLevel r' b' v') s))).regs := by
  refine regs_ext_bit (fun q c => ?_) (by simp)
  simp only [regLevel_bit, respond_bit]
  split
  · rename_i hq'
    obtain ⟨rfl, rfl⟩ := hq'
    rw [if_neg fun hq => h (by rw [hq.1, hq.2])]
  · rfl

/-- Settles O27: a bit read after it is given a level has it, and different bits do not meet. -/
theorem primitiveLaws : Obligations.PrimitiveLaws := by
  refine ⟨fun s r b hr => ?setThenTest, fun s r r' b b' hr hr' hne => ?commute⟩
  case setThenTest =>
    obtain ⟨u, hu, hone⟩ := exec_testbit_regLevel r b true s
    obtain ⟨u', hu', hzero⟩ := exec_testbit_regLevel r b false s
    exact ⟨_, u, _, u', exec_setbit hr b s, hu, hone, exec_clrbit hr b s, hu', hzero⟩
  case commute =>
    exact ⟨_, _, _, _, exec_setbit hr b s, exec_clrbit hr' b' _, exec_clrbit hr' b' s, exec_setbit hr b _,
      regLevel_comm hne true false _ _⟩

end Sys2Proof.Machine

namespace Sys2Proof

/-! ### The words of the commands with a pin operand (R86) -/

theorem setWidth_pin : ∀ p : Pin, (BitVec.ofNat 5 p.val).setWidth 24 = BitVec.ofNat 24 p.val := by decide

theorem setWidth_levelBit (v : Bool) : (levelBit v).setWidth 24 = if v then 1#24 else 0#24 := by
  cases v <;> rfl

/-- The word of a command whose A field is a pin. -/
theorem encode_pin {i : Instr} {p : Pin} (h : i.aBits = 0#3 ++ BitVec.ofNat 5 p.val) :
    encode i = i.op.fmatch ||| (BitVec.ofNat 24 p.val <<< 8) ||| i.bBits.setWidth 24 := by
  rw [encode_low5 h, setWidth_pin]

/-- The word of a command with a pin and a level. -/
theorem encode_pin_level {i : Instr} {p : Pin} {v : Bool} (ha : i.aBits = 0#3 ++ BitVec.ofNat 5 p.val)
    (hb : i.bBits = 0#7 ++ levelBit v) :
    encode i = i.op.fmatch ||| (BitVec.ofNat 24 p.val <<< 8) ||| (if v then 1#24 else 0#24) := by
  rw [encode_pin ha, hb, setWidth_zeros_append, setWidth_levelBit]

end Sys2Proof

namespace Sys2Proof.Machine

/-! ### PINMODE and DWRITE write one bit (R110, R111) -/

theorem microValue_regLevel (r : Reg8) (b : BitIx) (v : Bool) (s : State) :
    microValue (regLevel r b v) s = 0#16 := by
  cases v <;> rfl

/-- A command whose list gives one bit a level. -/
theorem exec_regLevel {i : Instr} {s : State} {r : Reg8} {b : BitIx} {v : Bool} (hw : i.wf = true)
    (h : opsOf s.cfg i = [regLevel r b v]) :
    exec i s = .next (respond 0#16 (microState (regLevel r b v) s)) := by
  rw [exec_single hw h, microValue_regLevel]

theorem exec_pinmode {s : State} {p : Pin} {g : Group} {b : BitIx} (h : pinAt s.cfg p = (g, b)) (v : Bool) :
    exec (.pinmode p v) s = .next (respond 0#16 (microState (regLevel (.dir g) b v) s)) :=
  exec_regLevel rfl (by simp [opsOf, pinmodeOps, modeOp, portBit_of_pinAt h])

theorem exec_dwrite {s : State} {p : Pin} {g : Group} {b : BitIx} (h : pinAt s.cfg p = (g, b)) (v : Bool) :
    exec (.dwrite p v) s = .next (respond 0#16 (microState (regLevel (.out g) b v) s)) :=
  exec_regLevel rfl (by simp [opsOf, dwriteOps, levelOp, portBit_of_pinAt h])

/-- A command that gives one bit a level responds 0, and the frame is that bit. -/
theorem exec_writes_bit {i : Instr} {s : State} {r : Reg8} {b : BitIx} {v : Bool}
    (h : exec i s = .next (respond 0#16 (microState (regLevel r b v) s))) :
    ∃ t, exec i s = .next t ∧ Completed t 0x0000#16 ∧ t.bit r b = v ∧ BitsKept s t [(r, b)] ∧ Frame s t [r] ∧
      NoDraw s t := by
  obtain ⟨hbit, hkept, hframe, hdraw, -⟩ := regLevel_effect s r b v
  exact ⟨_, h, ⟨rfl, rfl⟩, hbit, hkept, hframe.respond, hdraw⟩

/-- Settles O28: PINMODE is the one RegSet or RegClr of the pin's direction bit. -/
theorem pinmodeWritesOneDirectionBit : Obligations.PinmodeWritesOneDirectionBit :=
  ⟨fun _ _ => encode_pin_level rfl rfl, refusedUnder_of_operandFault .pinmode fun _ hw => ⟨rfl, hw⟩,
    fun _ _ v _ _ hp => exec_writes_bit (exec_pinmode hp v)⟩

/-- Settles O29: DWRITE is the one RegSet or RegClr of the pin's output bit. -/
theorem dwriteWritesOneOutputBit : Obligations.DwriteWritesOneOutputBit :=
  ⟨fun _ _ => encode_pin_level rfl rfl, refusedUnder_of_operandFault .dwrite fun _ hw => ⟨rfl, hw⟩,
    fun _ _ v _ _ hp => exec_writes_bit (exec_dwrite hp v)⟩

/-! ### DREAD reads the pad (R112) -/

theorem exec_dread {s : State} {p : Pin} {g : Group} {b : BitIx} (h : pinAt s.cfg p = (g, b)) :
    exec (.dread p) s = .next (respond (zextBit (padLevel s g b)) (afterRead s (.inp g))) :=
  exec_single (i := .dread p) (op := .regTst (.inp g) b) rfl (by simp [opsOf, dreadOps, inpOf, bitOf, h])

/-- Settles O30: DREAD is the one RegTst of the pin's input bit, whose level the pad's drive settles (R42). -/
theorem dreadReturnsThePadLevel : Obligations.DreadReturnsThePadLevel := by
  refine ⟨fun p => (encode_pin rfl).trans BitVec.or_zero,
    refusedUnder_of_operandFault .dread fun w hw => ⟨rfl, hw⟩, fun s p g b hok hp => ?_⟩
  have hlevel := padLevel_pin hok hp
  refine ⟨_, padLevel s g b, exec_dread hp, ⟨rfl, rfl⟩, fun hH => ?high, fun hL => ?low, fun hH hL => ?drawn,
    (frame_afterRead s _).respond, rfl, rfl⟩
  case high => rw [hlevel, hH]; rfl
  case low => rw [hlevel, hL]; rfl
  case drawn => rw [hlevel, levelOfDrive_else hH hL]

/-! ### No cross-pin interference (R113) -/

/-- A direction or output bit that is not the pin's own does not reach the pin's drive (R40). -/
theorem padDrive_regLevel_of_pinAt_ne {s : State} {r : Reg8} {g : Group} {b : BitIx} {y : Pin} (v : Bool)
    (hr : r = .dir g ∨ r = .out g) (hy : pinAt s.cfg y ≠ (g, b)) :
    padDrive (microState (regLevel r b v) s) y = padDrive s y := by
  have hother : ∀ r', r' = dirOf s.cfg y ∨ r' = outOf s.cfg y → ¬ (r' = r ∧ bitOf s.cfg y = b) := by
    rintro r' hr' ⟨rfl, hb⟩
    refine hy (Prod.ext ?_ hb)
    rcases hr' with rfl | rfl <;> simpa [dirOf, outOf] using hr
  refine padDrive_of_bits (microState_cfg _ _) ?direction ?output fun ch _ => ?channel
  case direction => rw [regLevel_bit, if_neg (hother _ (.inl rfl))]
  case output => rw [regLevel_bit, if_neg (hother _ (.inr rfl))]
  case channel =>
    rcases hr with rfl | rfl <;>
      exact ⟨regLevel_reg_ne s b v nofun, regLevel_reg_ne s b v nofun, regLevel_reg_ne s b v nofun⟩

/-- Settles O31: PINMAP is injective, so the bit written is not the other pin's. -/
theorem noCrossPinInterference : Obligations.NoCrossPinInterference := by
  intro s x y v hok hne
  have hy : pinAt s.cfg y ≠ pinAt s.cfg x := fun e => hne (pinAt_inj hok e).symm
  exact ⟨⟨_, exec_pinmode rfl v, padDrive_regLevel_of_pinAt_ne v (.inl rfl) hy⟩,
    ⟨_, exec_dwrite rfl v, padDrive_regLevel_of_pinAt_ne v (.inr rfl) hy⟩⟩

/-! ### The level written is the level read (R114) -/

/-- Writes outside the mode-control registers connect and disconnect no channel (R26). -/
theorem Frame.connected_eq {s t : State} {written : List Reg8} (h : Frame s t written) {ch : Channel}
    (hmca : .mca (timerOf ch) ∉ written) : connected t ch = connected s ch := by
  rw [connected, connected, State.bit, State.bit, h.regs _ hmca]

/-- An output whose channel, if it has one, is not connected reads its output bit (R40, R42). -/
theorem padLevel_output {s : State} (hok : s.cfg.Ok) {p : Pin} {g : Group} {b : BitIx}
    (hp : pinAt s.cfg p = (g, b)) (hd : s.bit (.dir g) b = true)
    (hc : ∀ ch, channelOf s.cfg p = some ch → connected s ch = false) : padLevel s g b = s.bit (.out g) b := by
  obtain ⟨hdir, hout, hbit⟩ := portBit_of_pinAt hp
  rw [padLevel_pin hok hp, padDrive_output (by rw [hdir, hbit, hd]) hc, hout, hbit]
  cases s.bit (.out g) b <;> rfl

/-- Settles O32: PINMODE makes the pin an output, DWRITE keeps that and sets the bit that DREAD then reads. -/
theorem writeThenRead : Obligations.WriteThenRead := by
  intro s p v hok hc
  obtain ⟨g, b, hp⟩ : ∃ g b, pinAt s.cfg p = (g, b) := ⟨_, _, rfl⟩
  obtain ⟨s1, hs1, -, hdir, -, hframe1, -⟩ := exec_writes_bit (exec_pinmode hp true)
  rw [← hframe1.cfg] at hp
  obtain ⟨s2, hs2, -, hout, hkept, hframe2, -⟩ := exec_writes_bit (exec_dwrite hp v)
  rw [← hframe2.cfg] at hp
  have hcfg : s2.cfg = s.cfg := hframe2.cfg.trans hframe1.cfg
  have hdir2 : s2.bit (.dir g) b = true := (hkept _ _ (by simp)).trans hdir
  have hconn : ∀ ch, channelOf s2.cfg p = some ch → connected s2 ch = false := fun ch hch => by
    rw [hframe2.connected_eq (by simp), hframe1.connected_eq (by simp), hc ch (hcfg ▸ hch)]
  have hlevel : padLevel s2 g b = v := (padLevel_output (hcfg ▸ hok) hp hdir2 hconn).trans hout
  exact ⟨s1, s2, _, hs1, hs2, exec_dread hp, rfl, by rw [hlevel]; rfl⟩

end Sys2Proof.Machine

namespace Sys2Proof

/-! ### The words of the commands without an operand (R83) -/

/-- Where every bit of the row is fixed, a word of the opcode other than the command's has a must-be-zero bit set. -/
theorem decode_reservedField_of_ne_fmatch {w : Word} {o : Op} (hmask : o.fmask = BitVec.allOnes 24)
    (hw : opField w = o.code) (hne : w ≠ o.fmatch) : decode w = .refused .reservedField :=
  (decode_refused_iff hw).2 (.inl ⟨rfl, by rwa [hmask, BitVec.and_allOnes]⟩)

end Sys2Proof

namespace Sys2Proof.Machine

/-! ### Lists that neither wait nor read -/

/-- A list that neither waits nor reads runs its micro-operations in order and responds 0 (R98). -/
theorem runOps_eq_respond_foldl {i : Instr} {ops : List MicroOp} {k : Nat} {s : State} (hnil : ops ≠ [])
    (hop : ∀ op ∈ ops, op ≠ .pollBusy ∧ ∀ t, microValue op t = 0#16) :
    runOps i ops k s = respond 0#16 (ops.foldl (fun s op => microState op s) s) := by
  obtain ⟨init, last, rfl⟩ := (List.eq_nil_or_concat' ops).resolve_left hnil
  rw [runOps_append_single fun op h => (hop op (by simp [h])).1, (hop last (by simp)).2, List.foldl_append]
  rfl

/-- The frame of a list is the targets of its micro-operations (R75). -/
theorem frame_foldl_microState {ops : List MicroOp} {s : State} {l : List Reg8}
    (h : ∀ op ∈ ops, ∀ r, op.target = some r → r ∈ l) :
    Frame s (ops.foldl (fun s op => microState op s) s) l := by
  induction ops generalizing s with
  | nil => exact Frame.refl s l
  | cons op rest ih => exact (frame_microState (h op (by simp))).trans (ih fun o ho => h o (by simp [ho]))

/-- An unchanged register has unchanged bits. -/
theorem State.bit_congr {s t : State} {r : Reg8} (h : t.reg r = s.reg r) (b : BitIx) : t.bit r b = s.bit r b := by
  rw [State.bit, State.bit, h]

/-! ### INITPWM writes the mode-control registers (R121 to R123) -/

theorem exec_initpwm (s : State) : exec .initpwm s = .next (respond 0#16 (initPwmState s)) := by
  rw [exec_wf rfl, opsOf, runOps_eq_respond_foldl (by simp [initpwmOps]) (by simp [initpwmOps, microValue])]
  rfl

theorem frame_initPwmState (s : State) :
    Frame s (initPwmState s) [.mca 0, .mcb 0, .mca 1, .mcb 1, .mca 2, .mcb 2] :=
  frame_foldl_microState (by simp [initpwmOps, MicroOp.target])

@[simp] theorem initPwmState_cfg (s : State) : (initPwmState s).cfg = s.cfg := (frame_initPwmState s).cfg

theorem initPwmState_mca (s : State) (tm : Timer) : (initPwmState s).reg (.mca tm) = s.cfg.pwmInitA :=
  initPwmState_reg s (.mca tm)

theorem initPwmState_mcb (s : State) (tm : Timer) : (initPwmState s).reg (.mcb tm) = s.cfg.pwmInitB :=
  initPwmState_reg s (.mcb tm)

/-- Settles O33: INITPWM is its six whole-register writes, and its word has no operand bit. -/
theorem initpwmWritesModeRegisters : Obligations.InitpwmWritesModeRegisters :=
  ⟨by decide, fun _ => decode_reservedField_of_ne_fmatch (o := .initpwm) rfl, fun s =>
    ⟨_, exec_initpwm s, ⟨rfl, rfl⟩, fun tm => ⟨initPwmState_mca s tm, initPwmState_mcb s tm⟩,
      (frame_initPwmState s).respond, rfl, rfl⟩⟩

/-- INITPWM's writes leave a state alone whose mode-control registers hold the two constants. -/
theorem initPwmState_eq_self {s : State} (hmca : ∀ tm, s.reg (.mca tm) = s.cfg.pwmInitA)
    (hmcb : ∀ tm, s.reg (.mcb tm) = s.cfg.pwmInitB) : initPwmState s = s := by
  have hregs : (initPwmState s).regs = s.regs := by
    refine Regs.ext_get _ _ (fun r => (initPwmState_reg s r).trans ?_) (frame_initPwmState s).adres
    cases r with
    | mca tm => exact (hmca tm).symm
    | mcb tm => exact (hmcb tm).symm
    | dir | out | duty | adsel | adcsr => rfl
  calc initPwmState s = { s with regs := (initPwmState s).regs } := rfl
    _ = s := by rw [hregs]

/-- Settles O34: after one INITPWM the mode-control registers hold what the second writes. -/
theorem initpwmTwiceIsOnce : Obligations.InitpwmTwiceIsOnce := by
  intro s
  refine ⟨_, exec_initpwm s, ?_⟩
  rw [exec_initpwm, initPwmState_eq_self (s := respond 0#16 (initPwmState s)) (initPwmState_mca s)
    (initPwmState_mcb s)]
  rfl

/-! ### INITPWM gives every output pin with a channel to its timer (R121, R127, R195) -/

/-- The mask 0xA3 of PWM_INIT_A (U17) holds the fast-PWM mode and every channel's connection bit (R26). -/
theorem initA_mask_fields : ∀ v : Byte, v &&& 0xA3#8 = 0xA3#8 →
    v.extractLsb' 0 2 = 0b11#2 ∧ ∀ ch : Channel, v.getLsbD (coBit ch).val = true := by decide

/-- The mask 0x07 of PWM_INIT_B (U17) is the clock select (R27). -/
theorem initB_mask_clock : ∀ v : Byte, v &&& 0x07#8 ≠ 0#8 → v.extractLsb' 0 3 ≠ 0#3 := by decide

/-- After INITPWM's writes every channel is connected. -/
theorem connected_initPwmState {s : State} (hok : s.cfg.Ok) (ch : Channel) :
    connected (initPwmState s) ch = true := by
  obtain ⟨-, -, -, -, -, -, -, -, -, hA, -⟩ := hok
  rw [connected, State.bit, initPwmState_mca]
  exact (initA_mask_fields _ hA).2 ch

/-- After INITPWM's writes every timer is active. -/
theorem pwmActive_initPwmState {s : State} (hok : s.cfg.Ok) (tm : Timer) :
    pwmActive (initPwmState s) tm = true := by
  obtain ⟨-, -, -, -, -, -, -, -, -, hA, hB⟩ := hok
  rw [pwmActive_iff, initPwmState_mca, initPwmState_mcb]
  exact ⟨(initA_mask_fields _ hA).1, initB_mask_clock _ hB⟩

/-- A pin with a channel drives PWM of its duty after INITPWM's writes if it is an output, else nothing. -/
theorem padDrive_initPwmState_channel {s : State} (hok : s.cfg.Ok) {p : Pin} {ch : Channel}
    (hch : channelOf s.cfg p = some ch) :
    padDrive (initPwmState s) p =
      if s.bit (dirOf s.cfg p) (bitOf s.cfg p) then .PWM (s.reg (.duty ch)) else .Z := by
  have hdir : (initPwmState s).bit (dirOf s.cfg p) (bitOf s.cfg p) = s.bit (dirOf s.cfg p) (bitOf s.cfg p) :=
    State.bit_congr (initPwmState_reg s (dirOf s.cfg p)) _
  split
  · rename_i hd
    rw [padDrive_pwm (s := initPwmState s) (by simpa using hch) (by simpa [hd] using hdir)
      (connected_initPwmState hok ch) (pwmActive_initPwmState hok _), initPwmState_reg]
  · rename_i hd
    exact padDrive_input (by simpa [hd] using hdir)

/-- A pin without a channel drives after INITPWM's writes what it drove. -/
theorem padDrive_initPwmState_none {s : State} {p : Pin} (hch : channelOf s.cfg p = none) :
    padDrive (initPwmState s) p = padDrive s p :=
  padDrive_of_bits (initPwmState_cfg s) (State.bit_congr (initPwmState_reg s (dirOf s.cfg p)) _)
    (State.bit_congr (initPwmState_reg s (outOf s.cfg p)) _) (by simp [hch])

/-- Settles O35: the constants connect every channel and run every timer, and no duty or port register moves. -/
theorem initpwmTakesEveryChannelPin : Obligations.InitpwmTakesEveryChannelPin :=
  fun s hok => ⟨_, exec_initpwm s, fun _ =>
    ⟨fun _ => padDrive_initPwmState_channel hok, padDrive_initPwmState_none⟩⟩

/-! ### PWMWR writes one duty register (R124, R125) -/

theorem exec_pwmwr (p : Pin) (d : Byte) (s : State) :
    exec (.pwmwr p d) s = .next (respond 0#16 (microState (dutyOp s.cfg p d) s)) := by
  rw [exec_single (op := dutyOp s.cfg p d) rfl rfl, (dutyOp_noDraw s s.cfg p d).2]

/-- A duty write targets the duty register of the pin's channel, if it has one. -/
theorem dutyOp_target (c : Config) (p : Pin) (d : Byte) :
    (dutyOp c p d).target = (channelOf c p).map .duty := by
  rw [dutyOp]
  cases channelOf c p <;> rfl

/-- PWMWR responds 0, and its frame is the duty register of the pin's channel, if it has one. -/
theorem exec_pwmwr_frame (p : Pin) (d : Byte) (s : State) :
    ∃ t, exec (.pwmwr p d) s = .next t ∧ Completed t 0x0000#16 ∧
      (∀ ch, channelOf s.cfg p = some ch → t.reg (.duty ch) = d) ∧
      Frame s t ((channelOf s.cfg p).map .duty).toList ∧ NoDraw s t := by
  refine ⟨_, exec_pwmwr p d s, ⟨rfl, rfl⟩, fun ch hch => ?_,
    (frame_microState fun r hr => ?_).respond, (dutyOp_noDraw s s.cfg p d).1⟩
  · rw [respond_reg, dutyOp_reg, if_pos ⟨ch, hch, rfl⟩]
  · rw [dutyOp_target] at hr
    exact Option.mem_toList.2 hr

/-- Settles O36: PWMWR is the one write of the duty register of the pin's channel. -/
theorem pwmwrWritesOneDuty : Obligations.PwmwrWritesOneDuty := by
  refine ⟨fun p d => encode_pin rfl, refusedUnder_of_operandFault .pwmwr fun w hw => ⟨rfl, hw⟩,
    fun s p d ch hch => ?channel, fun s p d hch => ?noChannel⟩
  case channel =>
    obtain ⟨t, ht, hdone, hduty, hframe, hdraw⟩ := exec_pwmwr_frame p d s
    rw [hch] at hframe
    exact ⟨t, ht, hdone, hduty ch hch, hframe, hdraw⟩
  case noChannel =>
    obtain ⟨t, ht, hdone, -, hframe, hdraw⟩ := exec_pwmwr_frame p d s
    rw [hch] at hframe
    exact ⟨t, ht, hdone, hframe, hdraw⟩

/-! ### A cleared connection bit returns its pin (R126) -/

/-- No connection bit is a mode bit (R26). -/
theorem coBit_ne_mode : ∀ ch : Channel, coBit ch ≠ 0 ∧ coBit ch ≠ 1 := by decide

/-- The mode of a timer is its bits 1 and 0 (R26). -/
theorem wgm_congr {s t : State} {tm : Timer} (h0 : t.bit (.mca tm) 0 = s.bit (.mca tm) 0)
    (h1 : t.bit (.mca tm) 1 = s.bit (.mca tm) 1) : wgm t tm = wgm s tm := by
  refine BitVec.eq_of_getLsbD_eq fun j hj => ?_
  rw [wgm, wgm, BitVec.getLsbD_extractLsb', BitVec.getLsbD_extractLsb']
  match j, hj with
  | 0, _ => exact congrArg (decide (0 < 2) && ·) h0
  | 1, _ => exact congrArg (decide (1 < 2) && ·) h1

section disconnect
variable (s : State) (ch : Channel)

/-- The state in which a channel's connection bit is cleared. -/
def disconnected : State := microState (regLevel (.mca (timerOf ch)) (coBit ch) false) s

theorem exec_clrbit_connection :
    exec (.clrbit (.reg (.mca (timerOf ch))) (coBit ch)) s = .next (respond 0#16 (disconnected s ch)) :=
  exec_clrbit rfl _ s

@[simp] theorem disconnected_cfg : (disconnected s ch).cfg = s.cfg := microState_cfg _ s

theorem disconnected_reg_ne {r : Reg8} (h : r ≠ .mca (timerOf ch)) : (disconnected s ch).reg r = s.reg r :=
  regLevel_reg_ne s _ _ h

/-- Only the channel's own connection bit is cleared. -/
theorem connected_disconnected (ch' : Channel) :
    connected (disconnected s ch) ch' = if ch' = ch then false else connected s ch' := by
  have hown : (Reg8.mca (timerOf ch') = .mca (timerOf ch) ∧ coBit ch' = coBit ch) ↔ ch' = ch :=
    ⟨fun h => channel_ext (Reg8.mca.inj h.1) h.2, fun h => by rw [h]; exact ⟨rfl, rfl⟩⟩
  rw [connected, disconnected, regLevel_bit, if_congr hown rfl rfl, connected]

/-- Mode and clock of every timer are as they were. -/
theorem pwmActive_disconnected (tm : Timer) : pwmActive (disconnected s ch) tm = pwmActive s tm := by
  have hmode : ∀ b, coBit ch ≠ b → (disconnected s ch).bit (.mca tm) b = s.bit (.mca tm) b := fun b hb => by
    rw [disconnected, regLevel_bit, if_neg fun h => hb h.2.symm]
  have hclock : (disconnected s ch).reg (.mcb tm) = s.reg (.mcb tm) := disconnected_reg_ne s ch nofun
  rw [pwmActive, pwmActive, wgm_congr (hmode 0 (coBit_ne_mode ch).1) (hmode 1 (coBit_ne_mode ch).2),
    clockSelect, clockSelect, hclock]

/-- An output pin whose channel is disconnected is driven from its output bit (R40). -/
theorem padDrive_disconnected {p : Pin} (hch : channelOf s.cfg p = some ch)
    (hd : s.bit (dirOf s.cfg p) (bitOf s.cfg p) = true) :
    padDrive (disconnected s ch) p = if s.bit (outOf s.cfg p) (bitOf s.cfg p) then .H else .L := by
  have hport : ∀ r, r ≠ .mca (timerOf ch) → (disconnected s ch).bit r (bitOf s.cfg p) = s.bit r (bitOf s.cfg p) :=
    fun _ hr => State.bit_congr (disconnected_reg_ne s ch hr) _
  have hconn : ∀ ch', channelOf s.cfg p = some ch' → connected (disconnected s ch) ch' = false := fun ch' hch' => by
    rw [connected_disconnected, if_pos (Option.some.inj (hch'.symm.trans hch))]
  rw [padDrive_output (s := disconnected s ch) ((hport (dirOf s.cfg p) nofun).trans hd) hconn,
    disconnected_cfg, hport (outOf s.cfg p) nofun]

end disconnect

/-- PWMWR connects and disconnects no channel. -/
theorem exec_pwmwr_connected (p : Pin) (d : Byte) (s : State) (ch : Channel) :
    ∃ t, exec (.pwmwr p d) s = .next t ∧ connected t ch = connected s ch := by
  obtain ⟨t, ht, -, -, hframe, -⟩ := exec_pwmwr_frame p d s
  exact ⟨t, ht, hframe.connected_eq (by simp)⟩

/-- Settles O37: CLRBIT clears the channel's connection bit alone, and no duty write sets it. -/
theorem disconnectReturnsThePin : Obligations.DisconnectReturnsThePin := by
  intro s p ch _ hch hd
  refine ⟨_, exec_clrbit_connection s ch, padDrive_disconnected s ch hch hd, fun ch' hne => ?_,
    pwmActive_disconnected s ch, fun q d => ?_⟩
  · exact (connected_disconnected s ch ch').trans (if_neg hne)
  · obtain ⟨u, hu, hconn⟩ := exec_pwmwr_connected q d (respond 0#16 (disconnected s ch)) ch
    exact ⟨u, hu, hconn.trans ((connected_disconnected s ch ch).trans (if_pos rfl))⟩

end Sys2Proof.Machine

namespace Sys2Proof.Machine

/-! ### INITADC writes the converter's fields (R136, R137) -/

/-- No micro-operation of a command clears EN: INITADC writes it 1, and the trigger keeps it (R137). -/
theorem adcEnabled_microState {s : State} {i : Instr} {op : MicroOp} (hop : op ∈ opsOf s.cfg i)
    (hen : adcEnabled s = true) : adcEnabled (microState op s) = true := by
  rcases mem_opsOf_cases hop with hp | ⟨k, rfl⟩ | rfl | rfl | rfl | rfl
  · exact (State.bit_congr (hp.keeps_converter s).1 7).trans hen
  · exact hen
  · exact (bitsKept_trigger s _ _ (by simp)).trans hen
  · exact hen
  · exact hen
  · exact (enable_fields s.cfg (s.reg .adcsr)).2.2.1

/-- The converter's step clears BUSY and keeps every other bit (R140). -/
theorem bitsKept_adcComplete (s : State) : BitsKept s (adcComplete s) [(.adcsr, 6)] := fun r b h =>
  (State.bit_congr ((adcComplete_reg s r).trans (State.reg_setReg s .adcsr r _).symm) b).trans
    (bitsKept_regClr (r := .adcsr) (b := 6) r b h)

/-- The converter's step leaves ADSEL alone (R140). -/
@[simp] theorem chsel_adcComplete (s : State) : chsel (adcComplete s) = chsel s := rfl

@[simp] theorem refcfg_adcComplete (s : State) : refcfg (adcComplete s) = refcfg s := rfl

@[simp] theorem adcComplete_atIndex (i : Instr) (k : Nat) (s : State) :
    adcComplete (atIndex i k s) = atIndex i k (adcComplete s) := rfl

@[simp] theorem adcEnabled_adcComplete (s : State) : adcEnabled (adcComplete s) = adcEnabled s :=
  bitsKept_adcComplete s _ _ (by simp)

/-- Settles O21: EN is kept by every micro-operation and by the converter's step. -/
theorem converterStaysEnabled : Obligations.ConverterStaysEnabled := by
  intro n s t hen hrun
  refine runSteps_keeps (P := fun u => adcEnabled u = true) (fun {u v} hstep hu => ?_) hrun hen
  rcases step_keeps_or_adcComplete (P := fun u => adcEnabled u = true)
    (fun {a b} ha _ hr => by rw [adcEnabled, State.bit, State.reg, hr]; exact ha)
    adcEnabled_microState hstep hu with ⟨-, rfl⟩ | hv
  · exact (adcEnabled_adcComplete u).trans hu
  · exact hv

/-- The state INITADC's two field writes leave. -/
def initAdcState (s : State) : State := (initadcOps s.cfg).foldl (fun s op => microState op s) s

theorem exec_initadc (s : State) : exec .initadc s = .next (respond 0#16 (initAdcState s)) := by
  rw [exec_wf rfl, opsOf, runOps_eq_respond_foldl (by simp [initadcOps]) (by simp [initadcOps, microValue])]
  rfl

theorem frame_initAdcState (s : State) : Frame s (initAdcState s) [.adsel, .adcsr] :=
  frame_foldl_microState (by simp [initadcOps, MicroOp.target])

theorem initAdcState_adsel (s : State) :
    (initAdcState s).reg .adsel = fieldWrite (s.reg .adsel) 0xF0#8 (refInitValue s.cfg) := rfl

theorem initAdcState_adcsr (s : State) :
    (initAdcState s).reg .adcsr = fieldWrite (s.reg .adcsr) 0x87#8 (divInitValue s.cfg) := rfl

/-- The mask of INITADC's write of ADCSR has no bit in 6:3 (R136). -/
theorem enableMask_getLsbD : ∀ b : BitIx, 3 ≤ b.val → b.val ≤ 6 → (0x87#8).getLsbD b.val = false := by decide

/-- Settles O38: INITADC is its two field writes, and its word has no operand bit. -/
theorem initadcWritesTheFields : Obligations.InitadcWritesTheFields := by
  refine ⟨by decide, fun _ => decode_reservedField_of_ne_fmatch (o := .initadc) rfl, fun s => ?_⟩
  obtain ⟨hchsel, hrefcfg⟩ := selectReference_fields s.cfg (s.reg .adsel)
  obtain ⟨-, hdiv, hen, -⟩ := enable_fields s.cfg (s.reg .adcsr)
  refine ⟨_, exec_initadc s, ⟨rfl, rfl⟩, hrefcfg, hchsel, hen, hdiv, fun b hlo hhi => ?_,
    (frame_initAdcState s).respond, rfl, rfl⟩
  rw [respond_bit, State.bit, initAdcState_adcsr, fieldWrite_getLsbD, enableMask_getLsbD b hlo hhi]
  rfl

/-! ### AREAD selects its channel and triggers (R138, R142) -/

/-- The state AREAD's first two entries leave: its channel selected, a conversion triggered. -/
def triggered (k : AnaChannel) (s : State) : State :=
  startConversion (microState (.regFld .adsel 0x0F#8 (chselValue k)) s)

theorem exec_aread (k : AnaChannel) (s : State) :
    exec (.aread k) s = .next (atIndex (.aread k) 2 (triggered k s)) := by
  rw [exec_wf rfl, runOps_aread]
  rfl

theorem frame_triggered (k : AnaChannel) (s : State) : Frame s (triggered k s) [.adsel, .adcsr] :=
  (frame_microState (by simp [MicroOp.target])).trans (frame_microState (op := .trigger) (by simp [MicroOp.target]))

theorem triggered_adcsr (k : AnaChannel) (s : State) :
    (triggered k s).reg .adcsr = bitSet (s.reg .adcsr) 6 := rfl

theorem busy_triggered (k : AnaChannel) (s : State) : busy (triggered k s) = true := busy_startConversion _

theorem chsel_triggered (k : AnaChannel) (s : State) : chsel (triggered k s) = BitVec.ofNat 4 k.val :=
  chsel_selectChannel s k

theorem refcfg_triggered (k : AnaChannel) (s : State) : refcfg (triggered k s) = refcfg s :=
  (selectChannel_fields (s.reg .adsel) k).2

theorem adcEnabled_triggered (k : AnaChannel) (s : State) : adcEnabled (triggered k s) = adcEnabled s :=
  bitsKept_trigger (microState (.regFld .adsel 0x0F#8 (chselValue k)) s) _ _ (by simp)

/-- The mask of the channel selection is the low four bits (R138). -/
theorem channelMask_getLsbD : ∀ b : BitIx, b ∉ [(0 : BitIx), 1, 2, 3] → (0x0F#8).getLsbD b.val = false := by
  decide

/-- Selecting the channel and triggering keep every bit but CHSEL and BUSY (R138, R143). -/
theorem bitsKept_triggered (k : AnaChannel) (s : State) :
    BitsKept s (triggered k s) [(.adsel, 0), (.adsel, 1), (.adsel, 2), (.adsel, 3), (.adcsr, 6)] := by
  intro r b h
  have htrigger := bitsKept_trigger (microState (.regFld .adsel 0x0F#8 (chselValue k)) s) r b
    fun hmem => h (by simp_all)
  refine htrigger.trans ?_
  by_cases hr : r = .adsel
  · subst hr
    exact bit_regFld_of_mask (channelMask_getLsbD b fun hb => h (by simp_all))
  · exact State.bit_congr (State.reg_setReg_ne s _ hr) b

/-- The word of AREAD: its channel in A (R87). -/
theorem encode_aread : ∀ k : AnaChannel,
    encode (.aread k) = 0x140000#24 ||| (BitVec.ofNat 24 k.val <<< 8) := by decide

/-- Settles O39: exec answers the wait behind the selection and the trigger. -/
theorem areadSelectsAndTriggers : Obligations.AreadSelectsAndTriggers :=
  ⟨encode_aread, refusedUnder_of_operandFault .aread fun _ hw => ⟨rfl, hw⟩, fun s k =>
    ⟨_, exec_aread k s, chsel_triggered k s, refcfg_triggered k s, busy_triggered k s, bitsKept_triggered k s,
      rfl, rfl, rfl, (frame_triggered k s).atIndex⟩⟩

/-! ### The wait (R139 to R142) -/

/-- While BUSY is 0 the entry at the sequencer's index is run. -/
theorem step_of_not_busy {s : State} {i : Instr} {k : Nat} {op : MicroOp} (hseq : s.seq = .running i k)
    (hget : (opsOf s.cfg i)[k]? = some op) (hbusy : busy s = false) :
    step s = .next (if k + 1 = (opsOf s.cfg i).length
      then respond (microValue op s) (microState op s) else atIndex i (k + 1) (microState op s)) := by
  rw [step_running hseq, runningStep, if_neg (by simp [adcCompleteEnabled, hbusy]), seqStep, hget]
  simp only [hbusy, Bool.false_eq_true, and_false, if_false]
  split <;> rfl

section wait
variable {s : State} {k : AnaChannel}

/-- With BUSY 0 the wait advances (R139). -/
theorem step_wait_ends (hseq : s.seq = .running (.aread k) 2) (hbusy : busy s = false) :
    step s = .next (atIndex (.aread k) 3 s) :=
  step_of_not_busy (op := .pollBusy) hseq rfl hbusy

/-- The last entry of AREAD responds with ADRES (R138 step 3). -/
theorem step_areadResponds (hseq : s.seq = .running (.aread k) 3) (hbusy : busy s = false) :
    step s = .next (respond (s.regs.adres.setWidth 16) s) :=
  step_of_not_busy (op := .regRead .adres) hseq rfl hbusy

/-- With BUSY 1 the sequencer stays at the wait (R139). -/
theorem seqStep_wait (hbusy : busy s = true) : seqStep (.aread k) 2 s = .next (atIndex (.aread k) 2 s) :=
  if_pos ⟨rfl, hbusy⟩

/-- The converter's turn has come (R140). -/
theorem step_adcComplete {i : Instr} {j : Nat} (hseq : s.seq = .running i j) (hen : adcEnabled s = true)
    (hbusy : busy s = true) (hconv : s.convLeft = some 0) : step s = .next (adcComplete s) := by
  rw [step_running hseq, runningStep, adcCompleteEnabled, hen, hbusy, hconv]
  rfl

/-- The wait repeats, and the converter's turn is one nearer (R139, R140). -/
theorem step_wait_nearer {n : Nat} (hseq : s.seq = .running (.aread k) 2) (hen : adcEnabled s = true)
    (hbusy : busy s = true) (hconv : s.convLeft = some (n + 1)) :
    step s = .next (atIndex (.aread k) 2 { s with convLeft := some n }) := by
  rw [step_running hseq, runningStep, adcCompleteEnabled, hen, hbusy, hconv]
  exact seqStep_wait hbusy

/-- The wait repeats, and the converter has no turn to come: it is not enabled, or it never acts (R141, R142). -/
theorem step_wait_stays (hseq : s.seq = .running (.aread k) 2) (hbusy : busy s = true)
    (hnone : adcEnabled s = false ∨ s.convLeft = none) : step s = .next (atIndex (.aread k) 2 s) := by
  rw [step_running hseq, runningStep, ← seqStep_wait hbusy]
  rcases hnone with hen | hconv
  · rw [adcCompleteEnabled, hen]
    rfl
  · rw [hconv]
    exact ite_self _

/-- While BUSY is 1 and the converter does not act, a step changes at most how near its turn is (R139). -/
theorem step_wait (hseq : s.seq = .running (.aread k) 2) (hbusy : busy s = true) (hconv : s.convLeft ≠ some 0) :
    ∃ left, step s = .next (atIndex (.aread k) 2 { s with convLeft := left }) := by
  cases hen : adcEnabled s with
  | false => exact ⟨s.convLeft, step_wait_stays hseq hbusy (.inl hen)⟩
  | true =>
    match hleft : s.convLeft with
    | none => exact ⟨s.convLeft, step_wait_stays hseq hbusy (.inr hleft)⟩
    | some 0 => exact absurd hleft hconv
    | some (n + 1) => exact ⟨some n, step_wait_nearer hseq hen hbusy hleft⟩

theorem runSteps_succ {t : State} {n : Nat} (h : step s = .next t) : runSteps (n + 1) s = runSteps n t := by
  rw [runSteps, h]

/-- A state whose step is itself is the end of every run from it. -/
theorem runSteps_fixed (h : step s = .next s) (n : Nat) : runSteps n s = .next s := by
  induction n with
  | zero => rfl
  | succ n ih => exact (runSteps_succ h).trans ih

/-- A wait whose converter has no turn to come hangs: every run comes back to it (R141, R142). -/
theorem runSteps_wait_hangs (hseq : s.seq = .running (.aread k) 2) (hbusy : busy s = true)
    (hnone : adcEnabled s = false ∨ s.convLeft = none) (hrsp : s.rsp = none) (n : Nat) :
    runSteps n s = .next s := by
  have hself : atIndex (.aread k) 2 s = s := by
    rw [atIndex, ← hseq, ← hrsp]
  exact runSteps_fixed ((step_wait_stays hseq hbusy hnone).trans (congrArg _ hself)) n

/-- A waiting AREAD whose converter acts in n turns: n waits, the converter's step, the end of the wait and the
response, by induction on the turns (R138 to R141). -/
theorem runSteps_wait_completes {n : Nat} (hseq : s.seq = .running (.aread k) 2) (hen : adcEnabled s = true)
    (hbusy : busy s = true) (hconv : s.convLeft = some n) :
    runSteps (n + 3) s =
      .next (respond ((Config.conversion s.draws (chsel s)).setWidth 16) (adcComplete s)) := by
  induction n generalizing s with
  | zero =>
    have hdone := busy_adcComplete s
    rw [runSteps_succ (step_adcComplete hseq hen hbusy hconv),
      runSteps_succ (step_wait_ends (s := adcComplete s) hseq hdone),
      runSteps_succ (step_areadResponds (s := atIndex (.aread k) 3 (adcComplete s)) rfl hdone)]
    rfl
  | succ n ih =>
    rw [Nat.add_right_comm, runSteps_succ (step_wait_nearer hseq hen hbusy hconv)]
    exact ih (s := atIndex (.aread k) 2 { s with convLeft := some n }) rfl hen hbusy rfl

/-- The same from any wait once the converter's turn is put n away (log 7). -/
theorem runSteps_wait_scheduled (n : Nat) (hseq : s.seq = .running (.aread k) 2) (hen : adcEnabled s = true)
    (hbusy : busy s = true) :
    runSteps (n + 3) { s with convLeft := some n } =
      .next (respond ((Config.conversion s.draws (chsel s)).setWidth 16) (adcComplete s)) :=
  runSteps_wait_completes (s := { s with convLeft := some n }) hseq hen hbusy rfl

end wait

/-- Settles O40: the wait repeats or advances, and the last entry reads ADRES. -/
theorem areadPollsBusy : Obligations.AreadPollsBusy := by
  refine ⟨fun s k hseq hbusy hconv => ?_, fun s k => step_wait_ends, fun s k => step_areadResponds⟩
  obtain ⟨left, hstep⟩ := step_wait hseq hbusy hconv
  exact ⟨_, hstep, rfl, hseq.symm, rfl, rfl, ⟨fun _ _ => rfl, rfl, rfl, rfl, rfl, rfl, rfl, rfl⟩⟩

/-- Settles O41: the step is the converter's. -/
theorem adcCompleteIsOneStep : Obligations.AdcCompleteIsOneStep := fun s _ _ hseq hen hbusy hconv =>
  ⟨_, step_adcComplete hseq hen hbusy hconv, adcComplete_adres s, bitsKept_adcComplete s, busy_adcComplete s,
    rfl, rfl, rfl, rfl, rfl, rfl, rfl, rfl, rfl, rfl⟩

/-- Settles O42: the state after the response is the converter's with the value presented. -/
theorem areadCompletes : Obligations.AreadCompletes := fun _ s _ hseq hen hbusy hconv =>
  ⟨_, runSteps_wait_completes hseq hen hbusy hconv, adcComplete_adres s, ⟨rfl, rfl⟩, bitsKept_adcComplete s,
    busy_adcComplete s, rfl, rfl, rfl, rfl, rfl⟩

/-- Clearing a bit that was 0 before it was set gives the byte back. -/
theorem bitClr_bitSet {v : Byte} {b : BitIx} (h : v.getLsbD b.val = false) : bitClr (bitSet v b) b = v := by
  refine byte_ext _ _ fun c => ?_
  rw [bitClr_getLsbD, bitSet_getLsbD]
  by_cases hc : c = b
  · rw [hc, h]; simp
  · simp [hc]

/-- Where no conversion was in flight, AREAD's trigger and the converter's step leave every register but ADSEL
as it was (R143). -/
theorem adcComplete_triggered_reg {s : State} {k : AnaChannel} {r : Reg8} (hbusy : busy s = false)
    (hr : r ≠ .adsel) : (adcComplete (triggered k s)).reg r = s.reg r := by
  rw [adcComplete_reg]
  split
  · rename_i hadcsr
    rw [hadcsr, triggered_adcsr]
    exact bitClr_bitSet hbusy
  · rename_i hadcsr
    exact (frame_triggered k s).regs r (by simp [hr, hadcsr])

/-- Settles O43: the wait that exec answers completes, and its BUSY is cleared again. -/
theorem areadReturnsAndLeavesTheRest : Obligations.AreadReturnsAndLeavesTheRest := by
  intro n s k hen hbusy
  have hrun := runSteps_wait_scheduled (s := atIndex (.aread k) 2 (triggered k s)) n rfl
    ((adcEnabled_triggered k s).trans hen) (busy_triggered k s)
  refine ⟨_, _, exec_aread k s, rfl, hrun, ?value, ⟨rfl, rfl⟩, ?channel, ?reference,
    fun r hr => ?registers, ?rest⟩
  case value => rw [respond_regs, adcComplete_adres, chsel_atIndex, chsel_triggered]
  case channel => rw [chsel_respond, chsel_adcComplete, chsel_atIndex, chsel_triggered]
  case reference => rw [refcfg_respond, refcfg_adcComplete, refcfg_atIndex, refcfg_triggered]
  case registers => rw [respond_reg, adcComplete_atIndex, atIndex_reg, adcComplete_triggered_reg hbusy hr]
  case rest =>
    have hframe := frame_triggered k s
    simp [hframe.cfg, hframe.fault, hframe.fcause, hframe.fword, hframe.host]

/-- Settles O44: the wait that exec answers hangs, since the trigger does not enable the converter. -/
theorem areadBeforeInitadcIsStuck : Obligations.AreadBeforeInitadcIsStuck := by
  intro s k hen
  have hoff : adcEnabled (triggered k s) = false := (adcEnabled_triggered k s).trans hen
  exact ⟨_, exec_aread k s, chsel_triggered k s, busy_triggered k s, fun n =>
    ⟨runSteps_wait_hangs (s := atIndex (.aread k) 2 (triggered k s)) rfl (busy_triggered k s) (.inl hoff) rfl n,
      rfl, rfl⟩⟩

/-- Settles O45: the wait hangs where the converter never acts. -/
theorem neverCompletingConversionHangs : Obligations.NeverCompletingConversionHangs := by
  intro n s k hseq hbusy hconv hrsp
  exact ⟨runSteps_wait_hangs hseq hbusy (.inr hconv) hrsp n, by simp [cmdReady, hseq]⟩

end Sys2Proof.Machine

namespace Sys2Proof

/-! ### The words of the commands with a speed operand (R88) -/

/-- A speed is its sign bit over its low byte. -/
theorem setWidth_speedBits (v : Int) :
    (((speedBits v).extractLsb' 8 1).setWidth 24 <<< 8) ||| ((speedBits v).extractLsb' 0 8).setWidth 24 =
      (BitVec.ofInt 9 v).setWidth 24 := by
  rw [← BitVec.setWidth_append_eq_shiftLeft_setWidth_or]
  exact congrArg _ BitVec.extractLsb'_append_extractLsb'

/-- The word of a command whose A field is operand bits over the speed's sign, and whose B field is the speed's
low byte. -/
theorem encode_speed {i : Instr} {n : Nat} {x : BitVec n} {v : Int}
    (ha : i.aBits.setWidth 24 = (x ++ (speedBits v).extractLsb' 8 1).setWidth 24)
    (hb : i.bBits = (speedBits v).extractLsb' 0 8) :
    encode i = i.op.fmatch ||| (x.setWidth 24 <<< 9) ||| (BitVec.ofInt 9 v).setWidth 24 := by
  rw [encode, wordOf_eq_or, Op.code_shiftLeft, ha, hb, BitVec.setWidth_append_eq_shiftLeft_setWidth_or,
    BitVec.shiftLeft_or_distrib, ← BitVec.shiftLeft_add, BitVec.or_assoc, BitVec.or_assoc, setWidth_speedBits,
    BitVec.or_assoc]

/-- The word of a command whose only operand is a speed. -/
theorem encode_speed_only {i : Instr} {v : Int} (ha : i.aBits = 0#7 ++ (speedBits v).extractLsb' 8 1)
    (hb : i.bBits = (speedBits v).extractLsb' 0 8) :
    encode i = i.op.fmatch ||| (BitVec.ofInt 9 v).setWidth 24 := by
  rw [encode_speed (congrArg _ ha) hb, show (0#7).setWidth 24 <<< 9 = 0#24 from rfl, BitVec.or_zero]

/-- The motor bit is bit 15 of the word (R88). -/
theorem encode_setmotor (m : Motor) (v : Int) : encode (.setmotor m v) =
    0x210000#24 ||| (if m = .B then 1#24 <<< 15 else 0#24) ||| (BitVec.ofInt 9 v).setWidth 24 := by
  have hmotor : (motorBit m ++ 0#6).setWidth 24 <<< 9 = if m = .B then 1#24 <<< 15 else 0#24 := by
    cases m <;> decide
  rw [encode_speed (x := motorBit m ++ 0#6) rfl rfl, hmotor]
  rfl

end Sys2Proof

namespace Sys2Proof.Machine

/-! ### The encoder (R150) -/

theorem enc_pos {v : Int} (h : v > 0) : enc v = ⟨true, false, BitVec.ofInt 8 v⟩ := if_pos h

theorem enc_neg {v : Int} (h : v < 0) : enc v = ⟨false, true, BitVec.ofInt 8 (-v)⟩ := by
  rw [enc, if_neg (by omega), if_pos h]

@[simp] theorem enc_zero : enc 0 = ⟨true, true, 0x00#8⟩ := rfl

/-- A magnitude of at most 255 is its 8-bit duty. -/
theorem toNat_ofInt_duty {v : Int} (h0 : 0 ≤ v) (h : v ≤ 255) : ((BitVec.ofInt 8 v).toNat : Int) = v := by
  rw [BitVec.toNat_ofInt]
  omega

/-- The low byte of the 9-bit speed is the speed modulo 256. -/
theorem speedBits_low_eq_ofInt (v : Int) : (speedBits v).extractLsb' 0 8 = BitVec.ofInt 8 v := by
  apply BitVec.eq_of_toNat_eq
  rw [BitVec.extractLsb'_toNat, speedBits, BitVec.toNat_ofInt, BitVec.toNat_ofInt, Nat.shiftRight_zero]
  omega

/-- Settles O46, by the three branches of the encoder. -/
theorem encoderTable : Obligations.EncoderTable := by
  intro v hv
  obtain ⟨hlow, hhigh⟩ : -255 ≤ v ∧ v ≤ 255 := of_decide_eq_true hv
  rw [speedBits_low_eq_ofInt]
  refine ⟨fun h => ?forward, fun h => ?reverse, ?brake, ?never⟩
  case forward =>
    rw [enc_pos h]
    exact ⟨rfl, rfl, toNat_ofInt_duty (by omega) hhigh, rfl⟩
  case reverse =>
    rw [enc_neg h, ← BitVec.neg_eq_not_add, ← BitVec.ofInt_neg]
    exact ⟨rfl, rfl, toNat_ofInt_duty (by omega) (by omega), rfl⟩
  case brake =>
    rintro rfl
    exact enc_zero
  case never =>
    rcases lt_trichotomy v 0 with h | rfl | h
    · exact .inr (by rw [enc_neg h])
    · exact .inl rfl
    · exact .inl (by rw [enc_pos h])

end Sys2Proof.Machine

namespace Sys2Proof.Machine

/-! ### Lists that only write -/

/-- A micro-operation that writes a register or does nothing: it neither reads, nor triggers, nor waits. -/
def MicroOp.Writes : MicroOp → Prop
  | .regSet _ _ | .regClr _ _ | .regWr _ _ | .regFld _ _ _ | .skip => True
  | .regTst _ _ | .regRead _ | .trigger | .pollBusy => False

theorem MicroOp.Writes.ne_pollBusy {op : MicroOp} (h : op.Writes) : op ≠ .pollBusy := by
  rintro rfl; exact h

theorem MicroOp.Writes.microValue {op : MicroOp} (h : op.Writes) (s : State) : microValue op s = 0#16 := by
  cases op with
  | regTst | regRead => exact h.elim
  | _ => rfl

theorem MicroOp.Writes.noDraw {op : MicroOp} (h : op.Writes) (s : State) : NoDraw s (microState op s) :=
  noDraw_microState s (by rintro rfl; exact h) (by rintro _ _ rfl; exact h) (by rintro _ rfl; exact h)

theorem regLevel_writes (r : Reg8) (b : BitIx) (v : Bool) : (regLevel r b v).Writes := by
  cases v <;> trivial

theorem dutyOp_writes (c : Config) (p : Pin) (d : Byte) : (dutyOp c p d).Writes := by
  rw [dutyOp]
  cases channelOf c p <;> trivial

theorem disconnectOp_writes (c : Config) (p : Pin) : (disconnectOp c p).Writes := by
  rw [disconnectOp]
  cases channelOf c p <;> trivial

/-- A command whose list only writes runs it in order and responds 0. -/
theorem exec_of_writes {i : Instr} {s : State} (hw : i.wf = true) (h : ∀ op ∈ opsOf s.cfg i, op.Writes) :
    exec i s = .next (respond 0#16 ((opsOf s.cfg i).foldl (fun s op => microState op s) s)) := by
  rw [exec_wf hw, runOps_eq_respond_foldl (opsOf_ne_nil hw) fun op hop =>
    ⟨(h op hop).ne_pollBusy, (h op hop).microValue⟩]

theorem noDraw_foldl_microState {ops : List MicroOp} {s : State} (h : ∀ op ∈ ops, op.Writes) :
    NoDraw s (ops.foldl (fun s op => microState op s) s) := by
  induction ops generalizing s with
  | nil => exact ⟨rfl, rfl⟩
  | cons op rest ih =>
    obtain ⟨hdraws, hconv⟩ := (h op (by simp)).noDraw s
    obtain ⟨hdraws', hconv'⟩ := ih (s := microState op s) fun o ho => h o (by simp [ho])
    exact ⟨hdraws'.trans hdraws, hconv'.trans hconv⟩

/-- The frame of a list is the targets it has. -/
theorem frame_targets (ops : List MicroOp) (s : State) :
    Frame s (ops.foldl (fun s op => microState op s) s) (ops.filterMap MicroOp.target) :=
  frame_foldl_microState fun op hop _ hr => List.mem_filterMap.2 ⟨op, hop, hr⟩

/-- A frame that keeps every bit, the sequencer, the response and the draws keeps the state. -/
theorem Frame.eq_self {s t : State} {l : List Reg8} (h : Frame s t l) (hdraw : NoDraw s t)
    (hseq : t.seq = s.seq) (hrsp : t.rsp = s.rsp) (hbit : ∀ r b, t.bit r b = s.bit r b) : t = s := by
  have hregs : t.regs = s.regs := regs_ext_bit hbit h.adres
  obtain ⟨-, -, hcfg, hfault, hfcause, hfword, hhost, hgrain⟩ := h
  obtain ⟨hdraws, hconv⟩ := hdraw
  cases s
  cases t
  simp_all

/-! ### The bits that the micro-operations of the motor commands leave -/

@[simp] theorem regLevel_target (r : Reg8) (b : BitIx) (v : Bool) : (regLevel r b v).target = some r := by
  cases v <;> rfl

theorem levelOp_bit (c : Config) (p : Pin) (v : Bool) (s : State) (r : Reg8) (b : BitIx) :
    (microState (levelOp c p v) s).bit r b = if r = outOf c p ∧ b = bitOf c p then v else s.bit r b :=
  regLevel_bit s _ r _ b v

theorem outPinOp_bit (c : Config) (p : Pin) (s : State) (r : Reg8) (b : BitIx) :
    (microState (outPinOp c p) s).bit r b = if r = dirOf c p ∧ b = bitOf c p then true else s.bit r b :=
  regLevel_bit s _ r _ b true

theorem dutyOp_bit (c : Config) (p : Pin) (d : Byte) (s : State) (r : Reg8) (b : BitIx) :
    (microState (dutyOp c p d) s).bit r b =
      if ∃ ch, channelOf c p = some ch ∧ r = .duty ch then d.getLsbD b.val else s.bit r b := by
  rw [dutyOp]
  cases channelOf c p with
  | none => simp [microState]
  | some ch =>
    simp only [State.bit, microState, State.reg_setReg, Option.some.injEq, exists_eq_left']
    split <;> rfl

theorem disconnectOp_bit (c : Config) (p : Pin) (s : State) (r : Reg8) (b : BitIx) :
    (microState (disconnectOp c p) s).bit r b =
      if ∃ ch, channelOf c p = some ch ∧ r = .mca (timerOf ch) ∧ b = coBit ch then false else s.bit r b := by
  rw [disconnectOp]
  cases channelOf c p with
  | none => simp [microState]
  | some ch =>
    simp only [Option.some.injEq, exists_eq_left']
    exact regLevel_bit s _ r _ b false

/-- One output bit is one pin (R5, R61). -/
theorem outBit_inj {c : Config} (hok : c.Ok) {p q : Pin} :
    outOf c p = outOf c q ∧ bitOf c p = bitOf c q ↔ p = q :=
  ⟨fun ⟨hr, hb⟩ => pinAt_inj hok (Prod.ext (Reg8.out.inj hr) hb), by rintro rfl; exact ⟨rfl, rfl⟩⟩

/-! ### The pins of the motors (R7, R151) -/

theorem motorPins_d1_ne_d2 {c : Config} (hok : c.Ok) (m : Motor) : (motorPins c m).d1 ≠ (motorPins c m).d2 := by
  obtain ⟨-, -, -, -, -, hnodup, -⟩ := hok
  simp only [Config.motorDriverPins, List.nodup_cons, List.mem_cons, not_or] at hnodup
  cases m <;> simp_all [motorPins]

/-- The two motors share no pin. -/
theorem motorPins_disjoint {c : Config} (hok : c.Ok) {m m' : Motor} (hne : m ≠ m') {p q : Pin}
    (hp : p ∈ [(motorPins c m).d1, (motorPins c m).d2, (motorPins c m).pwm])
    (hq : q ∈ [(motorPins c m').d1, (motorPins c m').d2, (motorPins c m').pwm]) : p ≠ q := by
  obtain ⟨-, -, -, -, -, hnodup, -⟩ := hok
  have happend : ([c.motorA.d1, c.motorA.d2, c.motorA.pwm] ++
      ([c.motorB.d1, c.motorB.d2, c.motorB.pwm] ++ [c.pinEn])).Nodup := hnodup
  obtain ⟨-, -, hdisjoint⟩ := List.nodup_append.1 happend
  have hapart : ∀ p ∈ [c.motorA.d1, c.motorA.d2, c.motorA.pwm], ∀ q ∈ [c.motorB.d1, c.motorB.d2, c.motorB.pwm],
      p ≠ q := fun p hp q hq => hdisjoint p hp q (List.mem_append_left _ hq)
  cases m <;> cases m'
  · exact absurd rfl hne
  · exact hapart p hp q hq
  · exact (hapart q hq p hp).symm
  · exact absurd rfl hne

/-! ### SETMOTOR, DRIVEA and DRIVEB (R153 to R155) -/

section motor
variable (s : State) (m : Motor) (v : Int)

theorem motorOps_writes (c : Config) : ∀ op ∈ motorOps c m v, op.Writes := by
  simp [motorOps, levelOp, regLevel_writes, dutyOp_writes]

/-- The state the three writes to a motor leave. -/
def motorState : State := (motorOps s.cfg m v).foldl (fun s op => microState op s) s

@[simp] theorem motorState_cfg : (motorState s m v).cfg = s.cfg := (frame_targets _ s).cfg

/-- The bits that the three writes leave; of equal bits the later one would win. -/
theorem motorState_bit (r : Reg8) (b : BitIx) : (motorState s m v).bit r b =
    if ∃ ch, channelOf s.cfg (motorPins s.cfg m).pwm = some ch ∧ r = .duty ch then (enc v).duty.getLsbD b.val
    else if r = outOf s.cfg (motorPins s.cfg m).d2 ∧ b = bitOf s.cfg (motorPins s.cfg m).d2 then (enc v).dir2
    else if r = outOf s.cfg (motorPins s.cfg m).d1 ∧ b = bitOf s.cfg (motorPins s.cfg m).d1 then (enc v).dir1
    else s.bit r b := by
  simp only [motorState, motorOps, List.foldl_cons, List.foldl_nil, dutyOp_bit, levelOp_bit]

/-- The three writes reach the motor's two output registers and the duty of its channel. -/
theorem frame_motorState {ch : Channel} (hch : channelOf s.cfg (motorPins s.cfg m).pwm = some ch) :
    Frame s (motorState s m v)
      [outOf s.cfg (motorPins s.cfg m).d1, outOf s.cfg (motorPins s.cfg m).d2, .duty ch] :=
  frame_foldl_microState (by simp +contextual [motorOps, levelOp, dutyOp_target, hch])

theorem noDraw_motorState : NoDraw s (motorState s m v) := noDraw_foldl_microState (motorOps_writes m v _)

variable {s m v}

theorem motorState_d1 (hok : s.cfg.Ok) :
    (motorState s m v).bit (outOf s.cfg (motorPins s.cfg m).d1) (bitOf s.cfg (motorPins s.cfg m).d1) =
      (enc v).dir1 := by
  rw [motorState_bit, if_neg (by rintro ⟨_, -, h⟩; cases h),
    if_neg fun h => motorPins_d1_ne_d2 hok m ((outBit_inj hok).1 h), if_pos ⟨rfl, rfl⟩]

theorem motorState_d2 :
    (motorState s m v).bit (outOf s.cfg (motorPins s.cfg m).d2) (bitOf s.cfg (motorPins s.cfg m).d2) =
      (enc v).dir2 := by
  rw [motorState_bit, if_neg (by rintro ⟨_, -, h⟩; cases h), if_pos ⟨rfl, rfl⟩]

theorem motorState_duty {ch : Channel} (hch : channelOf s.cfg (motorPins s.cfg m).pwm = some ch) :
    (motorState s m v).reg (.duty ch) = (enc v).duty :=
  byte_ext _ _ fun b => (motorState_bit s m v _ b).trans (if_pos ⟨ch, hch, rfl⟩)

/-- A command whose list is the three writes to a motor. -/
theorem exec_of_motorOps {i : Instr} (hw : i.wf = true) (h : opsOf s.cfg i = motorOps s.cfg m v) :
    exec i s = .next (respond 0#16 (motorState s m v)) := by
  rw [exec_of_writes hw (h ▸ motorOps_writes m v s.cfg), h, motorState]

theorem exec_setmotor (hv : speedOk v = true) :
    exec (.setmotor m v) s = .next (respond 0#16 (motorState s m v)) := exec_of_motorOps hv rfl

end motor

/-- Settles O47: the three writes meet nowhere, since the motor's pins differ and PINMAP is injective. -/
theorem setmotorDrivesItsMotor : Obligations.SetmotorDrivesItsMotor := by
  refine ⟨encode_setmotor, refusedUnder_of_operandFault .setmotor fun _ hw => ⟨rfl, hw⟩,
    fun s m v ch hok hv hch => ⟨_, exec_setmotor hv, ⟨rfl, rfl⟩, motorState_d1 hok, motorState_d2,
      motorState_duty hch, fun r b h1 h2 hd => ?kept, (frame_motorState s m v hch).respond,
      noDraw_motorState s m v⟩⟩
  case kept =>
    have hduty : ¬ ∃ ch', channelOf s.cfg (motorPins s.cfg m).pwm = some ch' ∧ r = .duty ch' := by
      rw [hch]
      rintro ⟨_, ⟨⟩, hr⟩
      exact hd hr
    rw [respond_bit, motorState_bit, if_neg hduty, if_neg (mt Prod.ext_iff.2 h2), if_neg (mt Prod.ext_iff.2 h1)]

/-- Settles O48: the three commands have one list. -/
theorem driveDelegatesToSetmotor : Obligations.DriveDelegatesToSetmotor :=
  ⟨fun _ => ⟨encode_speed_only rfl rfl, encode_speed_only rfl rfl⟩,
    refusedUnder_of_operandFault .drivea fun _ hw => ⟨rfl, hw⟩,
    refusedUnder_of_operandFault .driveb fun _ hw => ⟨rfl, hw⟩,
    fun _ _ hv => ⟨_, _, exec_of_motorOps hv rfl, exec_setmotor hv, exec_of_motorOps hv rfl, exec_setmotor hv,
      rfl, rfl⟩⟩

/-- A second SETMOTOR finds the bits it writes. -/
theorem exec_setmotor_twice {s t : State} {m : Motor} {v : Int} (hv : speedOk v = true)
    (ht : t = respond 0#16 (motorState s m v)) : exec (.setmotor m v) t = .next t := by
  have hseq : t.seq = .idle := by rw [ht, respond_seq]
  have hrsp : t.rsp = some ⟨false, 0#16⟩ := by rw [ht, respond_rsp]
  have hbit : ∀ r b, (motorState t m v).bit r b = t.bit r b := fun r b => by
    simp only [ht, motorState_bit, respond_cfg, respond_bit, motorState_cfg]
    repeat (split; rfl)
    rfl
  have hself : respond 0#16 (motorState t m v) = t :=
    (frame_targets (motorOps t.cfg m v) t).respond.eq_self (noDraw_motorState t m v) hseq.symm hrsp.symm hbit
  rw [exec_setmotor hv, hself]

/-- The three writes leave the other motor's output bits and duty alone. -/
theorem motorState_other {s : State} (hok : s.cfg.Ok) {m m' : Motor} (hne : m ≠ m') (v : Int) :
    (∀ ch, channelOf s.cfg (motorPins s.cfg m').pwm = some ch →
      (motorState s m v).reg (.duty ch) = s.reg (.duty ch)) ∧
    ∀ p ∈ [(motorPins s.cfg m').d1, (motorPins s.cfg m').d2],
      (motorState s m v).bit (outOf s.cfg p) (bitOf s.cfg p) = s.bit (outOf s.cfg p) (bitOf s.cfg p) := by
  refine ⟨fun ch hch => byte_ext _ _ fun b => (motorState_bit s m v _ b).trans ?_, fun p hp => ?_⟩
  · have hchannel : ¬ ∃ ch', channelOf s.cfg (motorPins s.cfg m).pwm = some ch' ∧ Reg8.duty ch = .duty ch' := by
      rintro ⟨_, hch', ⟨⟩⟩
      exact motorPins_disjoint hok hne (by simp) (by simp) (channelOf_inj hok hch' hch)
    rw [if_neg hchannel, if_neg (by rintro ⟨h, -⟩; cases h), if_neg (by rintro ⟨h, -⟩; cases h), State.bit]
  · have hpin : p ∈ [(motorPins s.cfg m').d1, (motorPins s.cfg m').d2] ++ [(motorPins s.cfg m').pwm] :=
      List.mem_append_left _ hp
    rw [motorState_bit, if_neg (by rintro ⟨_, -, h⟩; cases h),
      if_neg fun h => motorPins_disjoint hok hne (by simp) hpin ((outBit_inj hok).1 h).symm,
      if_neg fun h => motorPins_disjoint hok hne (by simp) hpin ((outBit_inj hok).1 h).symm]

/-- Settles O52: the encoder sees only the speed, and the motors share neither a pin nor a channel. -/
theorem setmotorIsStateless : Obligations.SetmotorIsStateless := by
  refine ⟨fun s s' m v ch hok hcfg hv hch => ?same, fun s m m' v ch hok hv hne hch =>
    ⟨_, exec_setmotor hv, (motorState_other hok hne v).1 ch hch, (motorState_other hok hne v).2⟩⟩
  case same =>
    have hd1 := motorState_d1 (s := s') (m := m) (v := v) (hcfg ▸ hok)
    have hd2 := motorState_d2 (s := s') (m := m) (v := v)
    have hduty := motorState_duty (s := s') (m := m) (v := v) (hcfg ▸ hch)
    rw [hcfg] at hd1 hd2
    refine ⟨_, _, exec_setmotor hv, exec_setmotor hv, ?bits, (motorState_duty hch).trans hduty.symm,
      exec_setmotor_twice hv rfl⟩
    simp only [List.forall_mem_cons, respond_bit]
    exact ⟨(motorState_d1 hok).trans hd1.symm, motorState_d2.trans hd2.symm, List.forall_mem_nil _⟩

end Sys2Proof.Machine

namespace Sys2Proof.Machine

/-! ### STOPALL brakes both motors (R156) -/

/-- The four direction pins of the two motors (R151). -/
def directionPins (c : Config) : List Pin := [c.motorA.d1, c.motorA.d2, c.motorB.d1, c.motorB.d2]

/-- The PWM pins of the two motors (R151). -/
def motorPwmPins (c : Config) : List Pin := [c.motorA.pwm, c.motorB.pwm]

theorem stopallOps_writes (c : Config) : ∀ op ∈ stopallOps c, op.Writes := fun _ h =>
  (List.mem_append.1 h).elim (motorOps_writes _ _ _ _) (motorOps_writes _ _ _ _)

section stopall
variable (s : State)

/-- The state the six writes of STOPALL leave. -/
def stopallState : State := (stopallOps s.cfg).foldl (fun s op => microState op s) s

theorem exec_stopall : exec .stopall s = .next (respond 0#16 (stopallState s)) :=
  exec_of_writes rfl (stopallOps_writes s.cfg)

theorem frame_stopallState : Frame s (stopallState s) ((stopallOps s.cfg).filterMap MicroOp.target) :=
  frame_targets _ s

@[simp] theorem stopallState_cfg : (stopallState s).cfg = s.cfg := (frame_stopallState s).cfg

theorem stopallState_eq_motorState : stopallState s = motorState (motorState s .A 0) .B 0 := by
  rw [stopallState, stopallOps, List.foldl_append, motorState, motorState_cfg, motorState]

/-- The bits STOPALL leaves: it writes 1 to every direction pin and 0 to both duties. -/
theorem stopallState_bit (r : Reg8) (b : BitIx) : (stopallState s).bit r b =
    if ∃ p ∈ motorPwmPins s.cfg, ∃ ch, channelOf s.cfg p = some ch ∧ r = .duty ch then false
    else if ∃ p ∈ directionPins s.cfg, r = outOf s.cfg p ∧ b = bitOf s.cfg p then true
    else s.bit r b := by
  simp only [stopallState_eq_motorState, motorState_bit, motorState_cfg, enc_zero, BitVec.getLsbD_zero, motorPins,
    motorPwmPins, directionPins, List.exists_mem_cons_iff, List.not_mem_nil, false_and, exists_false, or_false]
  cases r with
  | duty ch =>
    simp only [outOf, Reg8.duty.injEq, exists_eq_right', reduceCtorEq, false_and, or_false, if_false]
    grind
  | out g =>
    simp only [reduceCtorEq, and_false, exists_false, or_false, if_false]
    grind
  | dir | mca | mcb | adsel | adcsr => simp [outOf]

/-- STOPALL writes output and duty registers only. -/
theorem stopallState_bit_ne (r : Reg8) (hduty : ∀ ch, r ≠ .duty ch) (hout : ∀ g, r ≠ .out g) (b : BitIx) :
    (stopallState s).bit r b = s.bit r b := by
  rw [stopallState_bit, if_neg (by rintro ⟨_, -, ch, -, h⟩; exact hduty ch h),
    if_neg (by rintro ⟨_, -, h, -⟩; exact hout _ h)]

variable {s}

theorem stopallState_direction {p : Pin} (hp : p ∈ directionPins s.cfg) :
    (stopallState s).bit (outOf s.cfg p) (bitOf s.cfg p) = true := by
  rw [stopallState_bit, if_neg (by rintro ⟨_, -, _, -, h⟩; cases h), if_pos ⟨p, hp, rfl, rfl⟩]

theorem stopallState_duty {p : Pin} (hp : p ∈ motorPwmPins s.cfg) {ch : Channel} (hch : channelOf s.cfg p = some ch) :
    (stopallState s).reg (.duty ch) = 0x00#8 :=
  byte_ext _ _ fun b => by
    rw [BitVec.getLsbD_zero]
    exact (stopallState_bit s (.duty ch) b).trans (if_pos ⟨p, hp, ch, hch, rfl⟩)

end stopall

/-- Settles O49: SETMOTOR A, 0 and SETMOTOR B, 0 write the brake's bits, whichever comes first. -/
theorem stopallBrakesBothMotors : Obligations.StopallBrakesBothMotors := by
  refine ⟨by decide, fun _ => decode_reservedField_of_ne_fmatch (o := .stopall) rfl,
    fun s ca cb hok hA hB => ?_⟩
  obtain ⟨-, hadres, hcfg, hfault, hfcause, hfword, hhost, hgrain⟩ := frame_stopallState s
  refine ⟨_, exec_stopall s, ⟨rfl, rfl⟩, fun p hp => stopallState_direction hp,
    stopallState_duty (p := s.cfg.motorA.pwm) (by simp [motorPwmPins]) hA,
    stopallState_duty (p := s.cfg.motorB.pwm) (by simp [motorPwmPins]) hB, fun r b hpins hca hcb => ?kept,
    hadres, hcfg, hfault, hfcause, hfword, hhost, hgrain, noDraw_foldl_microState (stopallOps_writes s.cfg)⟩
  case kept =>
    have hduty : ¬ ∃ p ∈ motorPwmPins s.cfg, ∃ ch, channelOf s.cfg p = some ch ∧ r = .duty ch := by
      rintro ⟨p, hp, ch, hch, rfl⟩
      simp only [motorPwmPins, List.mem_cons, List.not_mem_nil, or_false] at hp
      rcases hp with rfl | rfl
      · exact hca (congrArg _ (Option.some.inj (hch.symm.trans hA)))
      · exact hcb (congrArg _ (Option.some.inj (hch.symm.trans hB)))
    rw [respond_bit, stopallState_bit, if_neg hduty, if_neg]
    rintro ⟨p, hp, hr, hb⟩
    exact hpins p hp (Prod.ext hr hb)

/-! ### SETUPM prepares the motors (R152) -/

/-- Making pins outputs, one after the other, sets their direction bits. -/
theorem foldl_outPinOp_bit (c : Config) (ps : List Pin) (s : State) (r : Reg8) (b : BitIx) :
    ((ps.map (outPinOp c)).foldl (fun s op => microState op s) s).bit r b =
      if ∃ p ∈ ps, r = dirOf c p ∧ b = bitOf c p then true else s.bit r b := by
  induction ps generalizing s with
  | nil => simp
  | cons p ps ih =>
    simp only [List.map_cons, List.foldl_cons, ih, outPinOp_bit, List.exists_mem_cons_iff]
    split <;> split <;> simp_all

/-- SETUPM's list is seven pins made outputs, INITPWM's list, and the enable pin's two entries (R152). -/
theorem setupmOps_eq (c : Config) : setupmOps c =
    c.motorDriverPins.map (outPinOp c) ++ initpwmOps c ++ [disconnectOp c c.pinEn, levelOp c c.pinEn true] := rfl

theorem initpwmOps_writes (c : Config) : ∀ op ∈ initpwmOps c, op.Writes := by
  simp [initpwmOps, MicroOp.Writes]

theorem setupmOps_writes (c : Config) : ∀ op ∈ setupmOps c, op.Writes := by
  intro op hop
  rw [setupmOps_eq, List.mem_append, List.mem_append, List.mem_map] at hop
  rcases hop with (⟨p, -, rfl⟩ | hop) | hop
  · exact regLevel_writes (dirOf c p) (bitOf c p) true
  · exact initpwmOps_writes c op hop
  · simp only [List.mem_cons, List.not_mem_nil, or_false] at hop
    rcases hop with rfl | rfl
    · exact disconnectOp_writes _ _
    · exact regLevel_writes _ _ _

section setupm
variable (s : State)

/-- The state in which the seven pins of the motor driver are outputs. -/
def outputsState : State := (s.cfg.motorDriverPins.map (outPinOp s.cfg)).foldl (fun s op => microState op s) s

/-- The state the fifteen entries of SETUPM leave. -/
def setupmState : State := (setupmOps s.cfg).foldl (fun s op => microState op s) s

theorem exec_setupm : exec .setupm s = .next (respond 0#16 (setupmState s)) :=
  exec_of_writes rfl (setupmOps_writes s.cfg)

theorem frame_setupmState : Frame s (setupmState s) ((setupmOps s.cfg).filterMap MicroOp.target) :=
  frame_targets _ s

@[simp] theorem outputsState_cfg : (outputsState s).cfg = s.cfg := (frame_targets _ s).cfg

@[simp] theorem setupmState_cfg : (setupmState s).cfg = s.cfg := (frame_setupmState s).cfg

theorem setupmState_eq : setupmState s =
    microState (levelOp s.cfg s.cfg.pinEn true)
      (microState (disconnectOp s.cfg s.cfg.pinEn) (initPwmState (outputsState s))) := by
  rw [setupmState, setupmOps_eq, List.foldl_append, List.foldl_append, initPwmState, outputsState_cfg, outputsState]
  rfl

/-- The bits SETUPM leaves, from those INITPWM's writes leave. -/
theorem setupmState_bit (r : Reg8) (b : BitIx) : (setupmState s).bit r b =
    if r = outOf s.cfg s.cfg.pinEn ∧ b = bitOf s.cfg s.cfg.pinEn then true
    else if ∃ ch, channelOf s.cfg s.cfg.pinEn = some ch ∧ r = .mca (timerOf ch) ∧ b = coBit ch then false
    else (initPwmState (outputsState s)).bit r b := by
  rw [setupmState_eq, levelOp_bit, disconnectOp_bit]

theorem outputsState_bit (r : Reg8) (b : BitIx) : (outputsState s).bit r b =
    if ∃ p ∈ s.cfg.motorDriverPins, r = dirOf s.cfg p ∧ b = bitOf s.cfg p then true else s.bit r b :=
  foldl_outPinOp_bit _ _ _ _ _

theorem setupmState_dir (g : Group) (b : BitIx) : (setupmState s).bit (.dir g) b =
    if ∃ p ∈ s.cfg.motorDriverPins, pinAt s.cfg p = (g, b) then true else s.bit (.dir g) b := by
  have hpin : ∀ p, (Reg8.dir g = dirOf s.cfg p ∧ b = bitOf s.cfg p) ↔ pinAt s.cfg p = (g, b) := fun p => by
    simp [dirOf, bitOf, Prod.ext_iff, eq_comm]
  rw [setupmState_bit, if_neg (by rintro ⟨h, -⟩; cases h), if_neg (by rintro ⟨_, -, h, -⟩; cases h),
    State.bit_congr (initPwmState_reg _ (.dir g)), outputsState_bit]
  simp only [hpin]

theorem setupmState_out (g : Group) (b : BitIx) : (setupmState s).bit (.out g) b =
    if pinAt s.cfg s.cfg.pinEn = (g, b) then true else s.bit (.out g) b := by
  have hpin : (Reg8.out g = outOf s.cfg s.cfg.pinEn ∧ b = bitOf s.cfg s.cfg.pinEn) ↔
      pinAt s.cfg s.cfg.pinEn = (g, b) := by
    simp [outOf, bitOf, Prod.ext_iff, eq_comm]
  refine (setupmState_bit s _ b).trans (if_congr hpin rfl ?_)
  rw [if_neg (by rintro ⟨_, -, h, -⟩; cases h), State.bit_congr (initPwmState_reg _ (.out g)), outputsState_bit,
    if_neg (by rintro ⟨_, -, h, -⟩; cases h)]

theorem setupmState_mca (tm : Timer) (b : BitIx) : (setupmState s).bit (.mca tm) b =
    if ∃ ch, channelOf s.cfg s.cfg.pinEn = some ch ∧ timerOf ch = tm ∧ coBit ch = b then false
    else s.cfg.pwmInitA.getLsbD b.val := by
  rw [setupmState_bit, if_neg (by rintro ⟨h, -⟩; cases h), State.bit, initPwmState_mca, outputsState_cfg]
  simp only [Reg8.mca.injEq, eq_comm]

/-- SETUPM leaves every other register as INITPWM's writes leave it. -/
theorem setupmState_reg (r : Reg8) (hdir : ∀ g, r ≠ .dir g) (hout : ∀ g, r ≠ .out g) (hmca : ∀ tm, r ≠ .mca tm) :
    (setupmState s).reg r = (initPwmState s).reg r := by
  have hbit : ∀ b, (setupmState s).bit r b = (initPwmState (outputsState s)).bit r b := fun b => by
    rw [setupmState_bit, if_neg fun h => hout _ h.1, if_neg (by rintro ⟨_, -, h, -⟩; exact hmca _ h)]
  have houtputs : ∀ q, (∀ g, q ≠ .dir g) → (outputsState s).reg q = s.reg q := fun q hq =>
    byte_ext _ _ fun b => (outputsState_bit s q b).trans (if_neg (by rintro ⟨_, -, h, -⟩; exact hq _ h))
  rw [byte_ext _ _ hbit, initPwmState_reg, initPwmState_reg, outputsState_cfg]
  cases r with
  | mca | mcb => rfl
  | dir g => exact absurd rfl (hdir g)
  | out | duty | adsel | adcsr => exact houtputs _ nofun

variable {s}

/-- Every pin of the motor driver is an output. -/
theorem setupmState_output {p : Pin} (hp : p ∈ s.cfg.motorDriverPins) :
    (setupmState s).bit (dirOf s.cfg p) (bitOf s.cfg p) = true :=
  (setupmState_dir s _ _).trans (if_pos ⟨p, hp, rfl⟩)

theorem setupmState_enable : (setupmState s).bit (outOf s.cfg s.cfg.pinEn) (bitOf s.cfg s.cfg.pinEn) = true :=
  (setupmState_out s _ _).trans (if_pos rfl)

theorem connected_setupmState_enable {ch : Channel} (hch : channelOf s.cfg s.cfg.pinEn = some ch) :
    connected (setupmState s) ch = false :=
  (setupmState_mca s _ _).trans (if_pos ⟨ch, hch, rfl, rfl⟩)

/-- Every other channel is connected. -/
theorem connected_setupmState {ch : Channel} (hok : s.cfg.Ok) (hne : channelOf s.cfg s.cfg.pinEn ≠ some ch) :
    connected (setupmState s) ch = true := by
  have hother : ¬ ∃ ch', channelOf s.cfg s.cfg.pinEn = some ch' ∧ timerOf ch' = timerOf ch ∧ coBit ch' = coBit ch := by
    rintro ⟨ch', hch', ht, hb⟩
    exact hne (channel_ext ht hb ▸ hch')
  obtain ⟨-, -, -, -, -, -, -, -, -, hA, -⟩ := hok
  rw [connected, setupmState_mca, if_neg hother]
  exact (initA_mask_fields _ hA).2 ch

/-- A timer's activity is its two mode bits and its clock register (R26, R27, R41). -/
theorem pwmActive_congr {s t : State} {tm : Timer} (h0 : t.bit (.mca tm) 0 = s.bit (.mca tm) 0)
    (h1 : t.bit (.mca tm) 1 = s.bit (.mca tm) 1) (hclock : t.reg (.mcb tm) = s.reg (.mcb tm)) :
    pwmActive t tm = pwmActive s tm := by
  rw [pwmActive, pwmActive, wgm_congr h0 h1, clockSelect, clockSelect, hclock]

/-- Disconnecting the enable pin leaves its timer active. -/
theorem pwmActive_setupmState (hok : s.cfg.Ok) (tm : Timer) : pwmActive (setupmState s) tm = true := by
  have hmode : ∀ b, (∀ ch, coBit ch ≠ b) → (setupmState s).bit (.mca tm) b = (initPwmState s).bit (.mca tm) b := by
    intro b hb
    rw [setupmState_mca, if_neg (by rintro ⟨ch, -, -, h⟩; exact hb ch h), State.bit, initPwmState_mca]
  rw [← pwmActive_initPwmState hok tm]
  exact pwmActive_congr (hmode 0 fun ch => (coBit_ne_mode ch).1) (hmode 1 fun ch => (coBit_ne_mode ch).2)
    (setupmState_reg s (.mcb tm) nofun nofun nofun)

end setupm

/-- An output whose channel, if it has one, is not connected is H where its output bit is 1 (R40). -/
theorem padDrive_high {s : State} {p : Pin} (hd : s.bit (dirOf s.cfg p) (bitOf s.cfg p) = true)
    (hc : ∀ ch, channelOf s.cfg p = some ch → connected s ch = false)
    (ho : s.bit (outOf s.cfg p) (bitOf s.cfg p) = true) : padDrive s p = .H := by
  rw [padDrive_output hd hc, if_pos ho]

theorem pinEn_mem_motorDriverPins (c : Config) : c.pinEn ∈ c.motorDriverPins := by simp [Config.motorDriverPins]

theorem padDrive_setupmState_enable (s : State) : padDrive (setupmState s) s.cfg.pinEn = .H := by
  apply padDrive_high <;> rw [setupmState_cfg]
  · exact setupmState_output (pinEn_mem_motorDriverPins s.cfg)
  · exact fun _ => connected_setupmState_enable
  · exact setupmState_enable

/-- Settles O50, register by register. -/
theorem setupmPreparesTheMotors : Obligations.SetupmPreparesTheMotors := by
  refine ⟨by decide, fun _ => decode_reservedField_of_ne_fmatch (o := .setupm) rfl, fun s _ => ?_⟩
  obtain ⟨-, hadres, hcfg, hfault, hfcause, hfword, hhost, hgrain⟩ := frame_setupmState s
  refine ⟨_, exec_setupm s, ⟨rfl, rfl⟩, fun p hp => setupmState_output hp,
    fun g b hpins => (setupmState_dir s g b).trans (if_neg (by simpa using hpins)),
    fun tm => (setupmState_reg s (.mcb tm) nofun nofun nofun).trans (initPwmState_mcb s tm),
    fun tm b hch => (setupmState_mca s tm b).trans (if_pos hch),
    fun tm b hch => (setupmState_mca s tm b).trans (if_neg fun ⟨ch, h, hbit⟩ => hch ch h hbit),
    setupmState_enable, fun g b hpin => (setupmState_out s g b).trans (if_neg hpin),
    fun ch => (setupmState_reg s (.duty ch) nofun nofun nofun).trans (initPwmState_reg s (.duty ch)),
    (setupmState_reg s .adsel nofun nofun nofun).trans (initPwmState_reg s .adsel),
    (setupmState_reg s .adcsr nofun nofun nofun).trans (initPwmState_reg s .adcsr),
    hadres, hcfg, hfault, hfcause, hfword, hhost, hgrain, noDraw_foldl_microState (setupmOps_writes s.cfg),
    padDrive_setupmState_enable s⟩

/-! ### SETUPM then STOPALL (R156, V5) -/

section braked
variable {s : State}

/-- STOPALL moves no direction bit. -/
theorem stopallState_dirOf (p : Pin) :
    (stopallState s).bit (dirOf s.cfg p) (bitOf s.cfg p) = s.bit (dirOf s.cfg p) (bitOf s.cfg p) :=
  stopallState_bit_ne s (dirOf s.cfg p) nofun nofun _

/-- STOPALL clears no output bit. -/
theorem stopallState_outOf {p : Pin} (h : s.bit (outOf s.cfg p) (bitOf s.cfg p) = true) :
    (stopallState s).bit (outOf s.cfg p) (bitOf s.cfg p) = true := by
  rw [stopallState_bit, if_neg (by rintro ⟨_, -, _, -, h⟩; cases h), h, ite_self]

theorem connected_stopallState (ch : Channel) : connected (stopallState s) ch = connected s ch :=
  stopallState_bit_ne s (.mca (timerOf ch)) nofun nofun _

theorem pwmActive_stopallState (tm : Timer) : pwmActive (stopallState s) tm = pwmActive s tm :=
  pwmActive_congr (stopallState_bit_ne s (.mca tm) nofun nofun 0) (stopallState_bit_ne s (.mca tm) nofun nofun 1)
    (byte_ext _ _ (stopallState_bit_ne s (.mcb tm) nofun nofun))

/-- An output whose channel, if it has one, is not connected is H after STOPALL where its output bit is 1 then. -/
theorem padDrive_stopallState_high {p : Pin} (hd : s.bit (dirOf s.cfg p) (bitOf s.cfg p) = true)
    (hc : ∀ ch, channelOf s.cfg p = some ch → connected s ch = false)
    (ho : (stopallState s).bit (outOf s.cfg p) (bitOf s.cfg p) = true) : padDrive (stopallState s) p = .H := by
  apply padDrive_high <;> rw [stopallState_cfg]
  · exact (stopallState_dirOf p).trans hd
  · exact fun ch hch => (connected_stopallState ch).trans (hc ch hch)
  · exact ho

/-- A motor's PWM pin that is an output connected to an active timer drives PWM(0) after STOPALL. -/
theorem padDrive_stopallState_pwm {p : Pin} {ch : Channel} (hp : p ∈ motorPwmPins s.cfg)
    (hch : channelOf s.cfg p = some ch) (hd : s.bit (dirOf s.cfg p) (bitOf s.cfg p) = true)
    (hc : connected s ch = true) (ha : pwmActive s (timerOf ch) = true) :
    padDrive (stopallState s) p = .PWM 0x00#8 := by
  rw [padDrive_pwm (s := stopallState s) (ch := ch), stopallState_duty hp hch]
  · rwa [stopallState_cfg]
  · rw [stopallState_cfg, stopallState_dirOf, hd]
  · rw [connected_stopallState, hc]
  · rw [pwmActive_stopallState, ha]

end braked

theorem directionPins_subset (c : Config) : directionPins c ⊆ c.motorDriverPins := by
  simp [directionPins, Config.motorDriverPins]

theorem motorPwmPins_subset (c : Config) : motorPwmPins c ⊆ c.motorDriverPins := by
  simp [motorPwmPins, Config.motorDriverPins]

/-- A motor's PWM pin has a channel (R7), which is not the enable pin's. -/
theorem exists_channel_of_motorPwmPin {c : Config} (hok : c.Ok) {p : Pin} (hp : p ∈ motorPwmPins c) :
    ∃ ch, channelOf c p = some ch ∧ channelOf c c.pinEn ≠ some ch := by
  have hpin : p ≠ c.pinEn ∧ channelOf c p ≠ none := by
    obtain ⟨-, -, -, -, -, hnodup, hA, hB, -⟩ := hok
    simp only [Config.motorDriverPins, List.nodup_cons, List.mem_cons, not_or] at hnodup
    simp only [motorPwmPins, List.mem_cons, List.not_mem_nil, or_false] at hp
    rcases hp with rfl | rfl
    · exact ⟨by simp [hnodup], hA⟩
    · exact ⟨by simp [hnodup], hB⟩
  obtain ⟨hne, hbound⟩ := hpin
  obtain ⟨ch, hch⟩ := Option.ne_none_iff_exists'.1 hbound
  exact ⟨ch, hch, fun hen => hne (channelOf_inj hok hch hen)⟩

/-- Settles O51: SETUPM makes the pins outputs and gives the timers every pin but the enable pin; STOPALL writes
the levels and the duties. -/
theorem setupThenStopLeavesMotorsBraked : Obligations.SetupThenStopLeavesMotorsBraked := by
  intro s hok
  obtain ⟨t, ht⟩ : ∃ t, t = respond 0#16 (setupmState s) := ⟨_, rfl⟩
  have hcfg : t.cfg = s.cfg := by rw [ht, respond_cfg, setupmState_cfg]
  have hexec : exec .setupm s = .next t := ht ▸ exec_setupm s
  have hdir : ∀ p ∈ s.cfg.motorDriverPins, t.bit (dirOf t.cfg p) (bitOf t.cfg p) = true := fun p hp => by
    rw [hcfg, ht, respond_bit, setupmState_output hp]
  refine ⟨t, _, hexec, exec_stopall t, ?enable, fun p hp hch => ?direction, fun p hp => ?pwm⟩ <;>
    rw [padDrive_respond]
  case enable =>
    refine padDrive_stopallState_high (hdir _ (pinEn_mem_motorDriverPins _)) (fun ch hch => ?_)
      (stopallState_outOf ?_)
    · rw [hcfg] at hch
      exact ht ▸ connected_setupmState_enable hch
    · rw [hcfg, ht, respond_bit, setupmState_enable]
  case direction =>
    refine padDrive_stopallState_high (hdir _ (directionPins_subset _ hp)) (fun ch hch' => ?_)
      (stopallState_direction (by rwa [hcfg]))
    rw [hcfg, hch] at hch'
    cases hch'
  case pwm =>
    obtain ⟨ch, hch, hen⟩ := exists_channel_of_motorPwmPin hok hp
    exact padDrive_stopallState_pwm (by rwa [hcfg]) (by rwa [hcfg]) (hdir _ (motorPwmPins_subset _ hp))
      (by rw [ht]; exact connected_setupmState hok hen) (by rw [ht]; exact pwmActive_setupmState hok _)

end Sys2Proof.Machine

namespace Sys2Proof.Machine

/-! ### No step stops from the invariant (R139, R171) -/

/-- Settles O8: a command's list is run whole, and its operand check refuses any other term. -/
theorem everyCommandAnswers : Obligations.EveryCommandAnswers := fun i s =>
  ⟨fun hwf => ⟨_, exec_wf hwf⟩, fun hwf => by rw [exec_eq, hwf]; rfl⟩

theorem exists_next_of_startCommand {i : Instr} (hwf : i.wf = true) (s : State) : ∃ t, startCommand i s = .next t := by
  cases hgrain : s.grain with
  | command => exact ⟨_, (startCommand_command hgrain).trans (exec_wf hwf)⟩
  | micro => exact ⟨_, startCommand_micro hgrain⟩

/-- The port stops on no word: every command the decoder answers is well-formed (R91, R171). -/
theorem exists_next_of_portStep (s : State) : ∃ t, portStep s = .next t := by
  rw [portStep]
  split
  case h_1 => exact ⟨_, rfl⟩
  case h_2 w rest _ =>
    rw [acceptWord]
    split
    · exact ⟨_, rfl⟩
    · split
      case h_1 i hd => exact exists_next_of_startCommand (wf_of_decode hd) _
      case h_2 => exact ⟨_, rfl⟩

/-- The sequencer stops at no index of the command's list; at AREAD's wait it repeats (R24, R139). -/
theorem exists_next_of_seqStep {i : Instr} {k : Nat} {s : State} (hk : k < (opsOf s.cfg i).length) :
    ∃ t, seqStep i k s = .next t := by
  rw [seqStep, List.getElem?_eq_getElem hk]
  dsimp only
  split
  · exact ⟨_, rfl⟩
  · split <;> exact ⟨_, rfl⟩

/-- Whose turn it is does not matter: neither the converter nor the sequencer stops (R20, R140). -/
theorem exists_next_of_runningStep {i : Instr} {k : Nat} {s : State} (hk : k < (opsOf s.cfg i).length) :
    ∃ t, runningStep i k s = .next t := by
  rw [runningStep]
  split
  · split
    · exact ⟨_, rfl⟩
    · exact exists_next_of_seqStep hk
    · exact exists_next_of_seqStep hk
  · exact exists_next_of_seqStep hk

/-- Settles O17: an idle block's port never stops, and a running command is at an index of its list (R24). -/
theorem noStopFromTheInvariant : Obligations.NoStopFromTheInvariant := by
  intro s hinv
  cases hseq : s.seq with
  | idle => exact step_idle hseq ▸ exists_next_of_portStep s
  | running i k => exact step_running hseq ▸ exists_next_of_runningStep (hinv.runningLegal i k hseq).2

/-! ### Fault entry (R174) -/

/-- A faulted block refuses a presented word without decoding it, and moves nothing but the port (R175). -/
theorem step_of_faulted {s : State} {w : Word} {rest : List Word} (hseq : s.seq = .idle) (hfault : s.fault = true)
    (hhost : s.host = w :: rest) : step s = .next { s with host := rest, rsp := some ⟨true, 0x0000#16⟩ } := by
  rw [step_idle hseq, portStep, hhost]
  simp only [acceptWord, refuse, hfault, hseq, if_true]

/-- The first word that spells no command is latched with its cause, in the step that accepts it. -/
theorem step_of_refused {s : State} {w : Word} {rest : List Word} {c : Cause} (hseq : s.seq = .idle)
    (hfault : s.fault = false) (hhost : s.host = w :: rest) (hd : decode w = .refused c) :
    step s = .next (refuse { s with host := rest, fault := true, fcause := causeCode c, fword := w }) := by
  rw [step_idle hseq, portStep, hhost]
  simp only [acceptWord, faultEntry, hfault, hd, Bool.false_eq_true, if_false]

/-- Settles O10: the entry writes the latch where FAULT is 0, and leaves it alone where FAULT is 1. -/
theorem faultEntryLatchesTheFirstWord : Obligations.FaultEntryLatchesTheFirstWord := by
  intro s w rest c hseq hhost hd
  rcases Bool.eq_false_or_eq_true s.fault with hfault | hfault
  case inl =>
    exact ⟨_, step_of_faulted hseq hfault hhost, rfl, hseq, rfl, rfl, rfl, rfl, ⟨rfl, rfl⟩,
      fun h => absurd (hfault.symm.trans h) (by decide), fun _ => ⟨hfault, rfl, rfl⟩⟩
  case inr =>
    exact ⟨_, step_of_refused hseq hfault hhost hd, rfl, rfl, rfl, rfl, rfl, rfl, ⟨rfl, rfl⟩,
      fun _ => ⟨rfl, rfl, by cases c <;> rfl⟩, fun h => absurd (hfault.symm.trans h) (by decide)⟩

/-! ### The faulted block (R175) -/

/-- `t` differs from `s` in the response port and the host's list at most. -/
def SameButPort (s t : State) : Prop := ∃ host rsp, t = { s with host := host, rsp := rsp }

/-- All that the step of a faulted, idle block moves is the port. -/
theorem sameButPort_of_step {s t : State} (hseq : s.seq = .idle) (hfault : s.fault = true)
    (h : step s = .next t) : SameButPort s t := by
  cases hhost : s.host with
  | nil =>
    rw [step_idle hseq, portStep, hhost] at h
    cases h
    exact ⟨_, _, rfl⟩
  | cons w rest =>
    rw [step_of_faulted hseq hfault hhost] at h
    cases h
    exact ⟨_, _, rfl⟩

theorem SameButPort.step {s t u : State} (hseq : s.seq = .idle) (hfault : s.fault = true) (ht : SameButPort s t)
    (h : step t = .next u) : SameButPort s u := by
  obtain ⟨host, rsp, rfl⟩ := ht
  exact sameButPort_of_step (s := { s with host := host, rsp := rsp }) hseq hfault h

/-- Settles O11: with FAULT = 1 the invariant has the block idle, and then steps move the port alone. -/
theorem faultedBlockIsFailStop : Obligations.FaultedBlockIsFailStop := by
  refine ⟨fun _ _ _ => step_of_faulted, fun n s t hinv hfault hrun => ?_⟩
  have hport : SameButPort s t :=
    runSteps_keeps (fun h hu => hu.step (hinv.faultIdle hfault) hfault h) hrun ⟨_, _, rfl⟩
  obtain ⟨host, rsp, rfl⟩ := hport
  exact ⟨rfl, fun _ => rfl, hfault, rfl, rfl⟩

end Sys2Proof.Machine

namespace Sys2Proof.Machine

/-! ### An idle block with no word presented (R207) -/

/-- Settles O12: the port's step finds no word. -/
theorem idleStepChangesNothing : Obligations.IdleStepChangesNothing := by
  intro s hseq hhost
  rw [step_idle hseq]
  simp only [portStep, idleStep, hhost]

/-! ### INITPWM after SETUPM (R198) -/

/-- SETUPM moves no duty register. -/
theorem setupmState_dutyReg (s : State) (ch : Channel) : (setupmState s).reg (.duty ch) = s.reg (.duty ch) :=
  (setupmState_reg s (.duty ch) nofun nofun nofun).trans (initPwmState_reg s (.duty ch))

/-- INITPWM moves no direction bit. -/
theorem initPwmState_dirBit (s : State) (p : Pin) :
    (initPwmState s).bit (dirOf s.cfg p) (bitOf s.cfg p) = s.bit (dirOf s.cfg p) (bitOf s.cfg p) :=
  State.bit_congr (initPwmState_reg s (dirOf s.cfg p)) _

/-- INITPWM moves no output bit. -/
theorem initPwmState_outBit (s : State) (p : Pin) :
    (initPwmState s).bit (outOf s.cfg p) (bitOf s.cfg p) = s.bit (outOf s.cfg p) (bitOf s.cfg p) :=
  State.bit_congr (initPwmState_reg s (outOf s.cfg p)) _

theorem disconnected_respond (v : Data) (s : State) (ch : Channel) :
    disconnected (respond v s) ch = respond v (disconnected s ch) := rfl

/-- An output pin whose channel INITPWM connects and a disconnect takes back is driven from its output bit. -/
theorem padDrive_disconnected_initPwmState {s : State} {p : Pin} {ch : Channel}
    (hch : channelOf s.cfg p = some ch) (hd : s.bit (dirOf s.cfg p) (bitOf s.cfg p) = true) :
    padDrive (disconnected (initPwmState s) ch) p = if s.bit (outOf s.cfg p) (bitOf s.cfg p) then .H else .L := by
  rw [padDrive_disconnected, initPwmState_cfg, initPwmState_outBit]
  · rwa [initPwmState_cfg]
  · rw [initPwmState_cfg, initPwmState_dirBit, hd]

/-- Settles O53: SETUPM leaves the enable pin an output with its output bit 1, so INITPWM gives it to its timer,
and the disconnect gives it back. -/
theorem secondInitpwmTakesTheEnablePin : Obligations.SecondInitpwmTakesTheEnablePin := by
  intro s ch hok hch
  obtain ⟨t, ht⟩ : ∃ t, t = respond 0#16 (setupmState s) := ⟨_, rfl⟩
  have hcfg : t.cfg = s.cfg := by rw [ht, respond_cfg, setupmState_cfg]
  have hd : t.bit (dirOf t.cfg s.cfg.pinEn) (bitOf t.cfg s.cfg.pinEn) = true := by
    rw [hcfg, ht, respond_bit, setupmState_output (pinEn_mem_motorDriverPins s.cfg)]
  have ho : t.bit (outOf t.cfg s.cfg.pinEn) (bitOf t.cfg s.cfg.pinEn) = true := by
    rw [hcfg, ht, respond_bit, setupmState_enable]
  have hch' : channelOf t.cfg s.cfg.pinEn = some ch := hcfg ▸ hch
  refine ⟨t, _, _, ht ▸ exec_setupm s, exec_initpwm t, ?setup, ?taken,
    exec_clrbit_connection (respond 0#16 (initPwmState t)) ch, ?returned⟩
  case setup => rw [ht, padDrive_respond, padDrive_setupmState_enable]
  case taken =>
    rw [padDrive_respond, padDrive_initPwmState_channel (hcfg ▸ hok) hch', if_pos hd, ht, respond_reg,
      setupmState_dutyReg]
  case returned =>
    rw [padDrive_respond, disconnected_respond, padDrive_respond, padDrive_disconnected_initPwmState hch' hd,
      if_pos ho]

/-! ### A direction change (R203) -/

/-- A motor's first direction bit is 1 exactly for a forward speed, but for the brake (R150). -/
theorem enc_dir1 {v : Int} (h : v ≠ 0) : (enc v).dir1 = decide (v > 0) := by
  rcases lt_or_gt_of_ne h with hneg | hpos
  · rw [enc_neg hneg, decide_eq_false (by omega)]
  · rw [enc_pos hpos, decide_eq_true hpos]

/-- Settles O54: the first micro-operation gives the first direction bit the level that the second one has. -/
theorem directionChangePassesThroughBothEqual : Obligations.DirectionChangePassesThroughBothEqual := by
  intro s m v hok _ hbusy hv hseq _ hd2
  have hstep := step_of_not_busy (op := levelOp s.cfg (motorPins s.cfg m).d1 (enc v).dir1) hseq rfl hbusy
  refine ⟨_, hstep, rfl, ?first, ?second⟩
  case first => exact (levelOp_bit ..).trans ((if_pos ⟨rfl, rfl⟩).trans (enc_dir1 hv))
  case second =>
    have hne := motorPins_d1_ne_d2 hok m
    exact (levelOp_bit ..).trans ((if_neg fun h => hne ((outBit_inj hok).1 h).symm).trans hd2)

/-! ### The enable pin while SETUPM runs (R199) -/

/-- The frame of a list in which every micro-operation writes, register by register. -/
theorem frame_of_map_target {ops : List MicroOp} {written : List Reg8} (s : State)
    (h : ops.map MicroOp.target = written.map some) :
    Frame s (ops.foldl (fun s op => microState op s) s) written := by
  refine frame_foldl_microState fun op hop r hr => ?_
  have hmem : some r ∈ written.map some := hr ▸ h ▸ List.mem_map_of_mem hop
  simpa using hmem

/-- The registers that INITPWM writes, in its order (R121). -/
def initpwmTargets : List Reg8 := [.mca 0, .mcb 0, .mca 1, .mcb 1, .mca 2, .mcb 2]

theorem map_target_initpwmOps (c : Config) : (initpwmOps c).map MicroOp.target = initpwmTargets.map some := rfl

/-- MCAt is the target at 2t, and MCBt the one at 2t + 1. -/
theorem initpwmTargets_order : ∀ tm : Timer, ∀ j ≤ 6,
    (2 * tm.val < j → .mca tm ∉ initpwmTargets.drop j) ∧ (j ≤ 2 * tm.val + 1 → .mcb tm ∉ initpwmTargets.take j) ∧
      (2 * tm.val + 1 < j → .mcb tm ∉ initpwmTargets.drop j) := by decide

section firstWrites
variable (s : State) (j : Nat)

/-- The state the first j of INITPWM's six writes leave. -/
def initPwmFirst : State := ((initpwmOps s.cfg).take j).foldl (fun s op => microState op s) s

theorem frame_initPwmFirst : Frame s (initPwmFirst s j) (initpwmTargets.take j) :=
  frame_of_map_target s (by rw [List.map_take, map_target_initpwmOps, List.map_take])

/-- The writes still to come end in INITPWM's state. -/
theorem frame_initPwmState_of_firstWrites : Frame (initPwmFirst s j) (initPwmState s) (initpwmTargets.drop j) := by
  have hsplit : initPwmState s =
      ((initpwmOps s.cfg).drop j).foldl (fun s op => microState op s) (initPwmFirst s j) := by
    rw [initPwmState, initPwmFirst, ← List.foldl_append, List.take_append_drop]
  rw [hsplit]
  exact frame_of_map_target _ (by rw [List.map_drop, map_target_initpwmOps, List.map_drop])

@[simp] theorem initPwmFirst_cfg : (initPwmFirst s j).cfg = s.cfg := (frame_initPwmFirst s j).cfg

theorem initPwmFirst_reg {r : Reg8} (h : r ∉ initpwmTargets) : (initPwmFirst s j).reg r = s.reg r :=
  (frame_initPwmFirst s j).regs r fun hr => h (List.mem_of_mem_take hr)

variable {s j} {tm : Timer} (hj : j ≤ 6)
include hj

theorem initPwmFirst_mca (h : 2 * tm.val < j) : (initPwmFirst s j).reg (.mca tm) = s.cfg.pwmInitA := by
  rw [← initPwmState_mca s tm, (frame_initPwmState_of_firstWrites s j).regs _ ((initpwmTargets_order tm j hj).1 h)]

theorem initPwmFirst_mcb_kept (h : j ≤ 2 * tm.val + 1) : (initPwmFirst s j).reg (.mcb tm) = s.reg (.mcb tm) :=
  (frame_initPwmFirst s j).regs _ ((initpwmTargets_order tm j hj).2.1 h)

theorem initPwmFirst_mcb (h : 2 * tm.val + 1 < j) : (initPwmFirst s j).reg (.mcb tm) = s.cfg.pwmInitB := by
  rw [← initPwmState_mcb s tm, (frame_initPwmState_of_firstWrites s j).regs _ ((initpwmTargets_order tm j hj).2.2 h)]

end firstWrites

/-- With PWM_INIT_A in its timer's MCA an output pin's channel is connected and in fast-PWM mode, so the clock
settles whether the pin is driven (R40, R41). -/
theorem padDrive_of_initA {s : State} (hok : s.cfg.Ok) {p : Pin} {ch : Channel} (hch : channelOf s.cfg p = some ch)
    (hd : s.bit (dirOf s.cfg p) (bitOf s.cfg p) = true) (hmca : s.reg (.mca (timerOf ch)) = s.cfg.pwmInitA) :
    padDrive s p = if clockSelect s (timerOf ch) = 0#3 then .X else .PWM (s.reg (.duty ch)) := by
  obtain ⟨-, -, -, -, -, -, -, -, -, hA, -⟩ := hok
  obtain ⟨hmode, hbits⟩ := initA_mask_fields _ hA
  have hconn : connected s ch = true := by rw [connected, State.bit, hmca, hbits]
  have hactive : pwmActive s (timerOf ch) = (clockSelect s (timerOf ch) != 0#3) := by
    rw [pwmActive, wgm, hmca, hmode]
    rfl
  split
  · rename_i hstopped
    exact padDrive_inactive hch hd hconn (by simp [hactive, hstopped])
  · rename_i hrunning
    exact padDrive_pwm hch hd hconn (by simp [hactive, hrunning])

/-- The clock of PWM_INIT_B runs (U17). -/
theorem clockSelect_of_initB {s : State} (hok : s.cfg.Ok) {tm : Timer} (hmcb : s.reg (.mcb tm) = s.cfg.pwmInitB) :
    clockSelect s tm ≠ 0#3 := by
  obtain ⟨-, -, -, -, -, -, -, -, -, -, hB⟩ := hok
  rw [clockSelect, hmcb]
  exact initB_mask_clock _ hB

section enablePin
variable {s : State} {ch : Channel} {j : Nat}

/-- Making pins outputs writes direction registers only. -/
theorem outputsState_reg (s : State) {r : Reg8} (h : ∀ g, r ≠ .dir g) : (outputsState s).reg r = s.reg r :=
  byte_ext _ _ fun b => (outputsState_bit s r b).trans (if_neg (by rintro ⟨_, -, hr, -⟩; exact h _ hr))

theorem outputsState_enable (s : State) :
    (outputsState s).bit (dirOf s.cfg s.cfg.pinEn) (bitOf s.cfg s.cfg.pinEn) = true :=
  (outputsState_bit s _ _).trans (if_pos ⟨_, pinEn_mem_motorDriverPins s.cfg, rfl, rfl⟩)

/-- From the write of MCAt on, the clock of its timer settles the enable pin's drive. -/
theorem padDrive_window (hok : s.cfg.Ok) (hch : channelOf s.cfg s.cfg.pinEn = some ch) (hj : j ≤ 6)
    (h : 2 * (timerOf ch).val < j) :
    padDrive (initPwmFirst (outputsState s) j) s.cfg.pinEn =
      if clockSelect (initPwmFirst (outputsState s) j) (timerOf ch) = 0#3 then .X else .PWM (s.reg (.duty ch)) := by
  have hcfg : (initPwmFirst (outputsState s) j).cfg = s.cfg := by simp
  have hduty : (initPwmFirst (outputsState s) j).reg (.duty ch) = s.reg (.duty ch) :=
    (initPwmFirst_reg _ j (by simp [initpwmTargets])).trans (outputsState_reg s nofun)
  rw [padDrive_of_initA (ch := ch), hduty]
  · rwa [hcfg]
  · rwa [hcfg]
  · rw [hcfg, ← outputsState_enable s]
    exact State.bit_congr (initPwmFirst_reg _ j (by simp [initpwmTargets, dirOf])) _
  · rw [initPwmFirst_mca hj h, hcfg, outputsState_cfg]

theorem clockSelect_window_before (hj : j ≤ 6) {tm : Timer} (h : j ≤ 2 * tm.val + 1) :
    clockSelect (initPwmFirst (outputsState s) j) tm = clockSelect s tm := by
  rw [clockSelect, clockSelect, initPwmFirst_mcb_kept hj h, outputsState_reg s (r := .mcb tm) nofun]

theorem clockSelect_window_after (hok : s.cfg.Ok) (hj : j ≤ 6) {tm : Timer} (h : 2 * tm.val + 1 < j) :
    clockSelect (initPwmFirst (outputsState s) j) tm ≠ 0#3 :=
  clockSelect_of_initB (by simpa using hok) (by rw [initPwmFirst_mcb hj h, initPwmFirst_cfg])

variable (hbusy : busy s = false)
include hbusy

/-- SETUPM run over the first part of its list, one step for each entry. -/
theorem runSteps_setupm {mid post : List MicroOp} (hops : setupmOps s.cfg = mid ++ post) (hpost : post ≠ []) :
    runSteps mid.length (atIndex .setupm 0 s) =
      .next (atIndex .setupm mid.length (mid.foldl (fun s op => microState op s) s)) := by
  have hne : ∀ op ∈ mid, op ≠ .pollBusy ∧ op ≠ .trigger := fun op hop =>
    ne_pollBusy_and_ne_trigger (i := .setupm) (c := s.cfg) nofun (by rw [opsOf, hops]; simp [hop])
  simpa using runSteps_ops (i := .setupm) (pre := []) hops hpost hne hbusy

/-- Behind the seven outputs stand INITPWM's writes. -/
theorem runSteps_setupm_initWrites (hj : j ≤ 6) : runSteps (7 + j) (atIndex .setupm 0 s) =
    .next (atIndex .setupm (7 + j) (initPwmFirst (outputsState s) j)) := by
  have hops : setupmOps s.cfg =
      (s.cfg.motorDriverPins.map (outPinOp s.cfg) ++ (initpwmOps s.cfg).take j) ++
        ((initpwmOps s.cfg).drop j ++ [disconnectOp s.cfg s.cfg.pinEn, levelOp s.cfg s.cfg.pinEn true]) := by
    rw [setupmOps_eq, ← List.append_assoc, List.append_assoc _ (List.take _ _), List.take_append_drop]
  have hlen : (s.cfg.motorDriverPins.map (outPinOp s.cfg) ++ (initpwmOps s.cfg).take j).length = 7 + j := by
    rw [List.length_append, List.length_take, List.length_map]
    exact congrArg (7 + ·) (Nat.min_eq_left hj)
  have hrun := runSteps_setupm hbusy hops (by simp)
  rw [hlen, List.foldl_append] at hrun
  rw [hrun, initPwmFirst, outputsState_cfg, outputsState]

/-- Behind INITPWM's writes stands the disconnect of the enable pin's channel. -/
theorem runSteps_setupm_disconnect (hch : channelOf s.cfg s.cfg.pinEn = some ch) :
    runSteps 14 (atIndex .setupm 0 s) =
      .next (atIndex .setupm 14 (disconnected (initPwmState (outputsState s)) ch)) := by
  have hops : setupmOps s.cfg = (s.cfg.motorDriverPins.map (outPinOp s.cfg) ++ initpwmOps s.cfg ++
      [disconnectOp s.cfg s.cfg.pinEn]) ++ [levelOp s.cfg s.cfg.pinEn true] := rfl
  have hop : disconnectOp s.cfg s.cfg.pinEn = regLevel (.mca (timerOf ch)) (coBit ch) false := by
    rw [disconnectOp, hch]
    rfl
  have hrun := runSteps_setupm hbusy hops (by simp)
  rw [List.foldl_append, List.foldl_append, hop] at hrun
  rw [disconnected, initPwmState, outputsState_cfg, outputsState]
  exact hrun

/-- The fifteenth step is SETUPM's last. -/
theorem runSteps_setupm_all : runSteps 15 (atIndex .setupm 0 s) = .next (respond 0#16 (setupmState s)) := by
  obtain ⟨t, hexec, hrun, -⟩ := microStepsReachTheCommandsState s .setupm rfl hbusy
  rw [exec_setupm] at hexec
  cases hexec
  exact hrun nofun

end enablePin

/-- Settles O55, by the entries of SETUPM behind which the pin is looked at. -/
theorem enablePinWindowOfSetupm : Obligations.EnablePinWindowOfSetupm := by
  intro s ch hok hbusy hch
  have htm : (timerOf ch).val ≤ 2 := Nat.le_of_lt_succ (timerOf ch).isLt
  refine ⟨?clockUnset, fun k hlo hhi => ?clockSet, ?disconnect, ?last⟩
  case clockUnset =>
    rw [show 8 + 2 * (timerOf ch).val = 7 + (2 * (timerOf ch).val + 1) by omega]
    refine ⟨_, runSteps_setupm_initWrites hbusy (by omega), ?_⟩
    rw [padDrive_atIndex, padDrive_window hok hch (by omega) (by omega),
      clockSelect_window_before (by omega) le_rfl]
  case clockSet =>
    obtain ⟨j, rfl⟩ := Nat.exists_eq_add_of_le (show 7 ≤ k by omega)
    refine ⟨_, runSteps_setupm_initWrites hbusy (by omega), ?_⟩
    rw [padDrive_atIndex, padDrive_window hok hch (by omega) (by omega),
      if_neg (clockSelect_window_after hok (by omega) (by omega))]
  case disconnect =>
    refine ⟨_, runSteps_setupm_disconnect hbusy hch, ?_⟩
    have hcfg : (outputsState s).cfg = s.cfg := outputsState_cfg s
    have hout : (outputsState s).reg (outOf s.cfg s.cfg.pinEn) = s.reg (outOf s.cfg s.cfg.pinEn) :=
      outputsState_reg s nofun
    rw [padDrive_atIndex, padDrive_disconnected_initPwmState (hcfg ▸ hch) (hcfg ▸ outputsState_enable s), hcfg,
      State.bit_congr hout]
  case last => exact ⟨_, runSteps_setupm_all hbusy, (padDrive_respond ..).trans (padDrive_setupmState_enable s)⟩

end Sys2Proof.Machine
